-- ==== Sys2Proof/Word.lean ====
section
/-! DEFINITION. The value types of the core (spec 00_scope.md R10, R12, R13): every value is unsigned, and
the widths below are the only ones the spec uses. -/

namespace Sys2Proof

/-- An 8-bit value: a general register, a timer, a byte of memory, the immediate `kk` (R10, R91). -/
abbrev Byte := BitVec 8

/-- A 16-bit value: I, PC, a saved PC, an instruction word (R10, R90). -/
abbrev Word := BitVec 16

/-- A general register's index, a 4-bit field, so it is always 0 to 15 (R31, R98). -/
abbrev RegIdx := BitVec 4

/-- The 12-bit address field `nnn` (R91). -/
abbrev Addr12 := BitVec 12

/-- A 4-bit field of an instruction word, or the row count `n` of Draw (R12, R93). -/
abbrev Nibble := BitVec 4

/-- VF, the flag register: general register 15 (R32). -/
abbrev vf : RegIdx := 15

end Sys2Proof
end

