-- ==== Sys2Proof/Config.lean ====
section
/-! DEFINITION. What an implementation fixes: the fixed sizes of R10 and the TYPE of the named parameters of
R11. R11 says that a model should take each parameter as an argument, so they are one record, `Params`; the
values this hardware takes are in Machine/Parameters.lean. The core leaves no value free (spec
93_implementation_defined.md gives a fault, a refusal, a parameter or a decided value for every open point),
so there is no opaque constant here. -/

namespace Sys2Proof

/-- R10: the size of memory in bytes. -/
abbrev memSize : Nat := 4096

/-- R10: where LOAD puts a program, and the entry point of every program (R69, R252). -/
abbrev progBase : Nat := 0x200

/-- R10: the display's width in pixels. -/
abbrev dispW : Nat := 64

/-- R10: the display's height in pixels. -/
abbrev dispH : Nat := 32

/-- R10: the number of keys. -/
abbrev numKeys : Nat := 16

/-- R10: the bytes of one font glyph. -/
abbrev glyphBytes : Nat := 5

/-- R10: the bytes of the whole font table, 16 glyphs of 5 bytes. -/
abbrev fontBytes : Nat := 80

/-- R11, R172: ORIGIN_Y_MOD is 32 or 64 and nothing else. -/
inductive OriginYMod where
  | mod32
  | mod64
deriving DecidableEq, Repr

/-- The number ORIGIN_Y_MOD stands for. -/
def OriginYMod.toNat : OriginYMod → Nat
  | .mod32 => 32
  | .mod64 => 64

/-- R11: the core's named parameters. -/
structure Params where
  /-- FONT_BASE, a 12-bit address; `Params.wf` says FONT_BASE + 80 ≤ 0x200. -/
  fontBase : Addr12
  /-- FONT_DATA, the 80 bytes of R49. -/
  fontData : Vector Byte fontBytes
  /-- STACK_LIMIT, a natural number or none (R41). -/
  stackLimit : Option Nat
  /-- ORIGIN_Y_MOD (R172). -/
  originYMod : OriginYMod
  /-- EXT_IO: whether the seven instructions of 45_ext_io.md decode (R102). -/
  extIo : Bool
deriving DecidableEq, Repr

end Sys2Proof
end

