-- ==== Sys2Proof/Syntax.lean ====
section
/-! DEFINITION. The instructions: one constructor per row of spec/opcode_table.json, with the operands of the
row's format (R92, R93). The spec's "Return" is the constructor `ret`, because `return` is a word of Lean. -/

namespace Sys2Proof

/-- The twelve instructions of the base set (R2, R94) and the seven of the EXT_IO profile (R190). -/
inductive Instr where
  /-- 00E0 (R140). -/
  | clearScreen
  /-- 00EE, the table's `Return` (R141). -/
  | ret
  /-- 1nnn (R142). -/
  | jump (nnn : Addr12)
  /-- 2nnn (R143). -/
  | call (nnn : Addr12)
  /-- 3xkk (R150). -/
  | skipEqVal (x : RegIdx) (kk : Byte)
  /-- 4xkk (R151). -/
  | skipNeVal (x : RegIdx) (kk : Byte)
  /-- 5xy0 (R152). -/
  | skipEqReg (x y : RegIdx)
  /-- 6xkk (R160). -/
  | setRegister (x : RegIdx) (kk : Byte)
  /-- 7xkk (R161). -/
  | addRegister (x : RegIdx) (kk : Byte)
  /-- 9xy0 (R153). -/
  | skipNeReg (x y : RegIdx)
  /-- Annn (R162). -/
  | setIndex (nnn : Addr12)
  /-- Dxyn (R174). -/
  | draw (x y : RegIdx) (n : Nibble)
  /-- Ex9E, EXT_IO (R191). -/
  | skipKeyPressed (x : RegIdx)
  /-- ExA1, EXT_IO (R192). -/
  | skipKeyNotPressed (x : RegIdx)
  /-- Fx07, EXT_IO (R193). -/
  | getDelay (x : RegIdx)
  /-- Fx0A, EXT_IO (R194). -/
  | waitKey (x : RegIdx)
  /-- Fx15, EXT_IO (R195). -/
  | setDelay (x : RegIdx)
  /-- Fx18, EXT_IO (R196). -/
  | setSound (x : RegIdx)
  /-- Fx29, EXT_IO (R197). -/
  | setIndexFont (x : RegIdx)
deriving DecidableEq, Repr

/-- The two profiles of the opcode table: `base` always decodes, `extIo` only when EXT_IO is true (R102). -/
inductive Profile where
  | base
  | extIo
deriving DecidableEq, Repr

/-- The profile of an instruction's row in spec/opcode_table.json. -/
def Instr.profile : Instr → Profile
  | .clearScreen => .base
  | .ret => .base
  | .jump _ => .base
  | .call _ => .base
  | .skipEqVal _ _ => .base
  | .skipNeVal _ _ => .base
  | .skipEqReg _ _ => .base
  | .setRegister _ _ => .base
  | .addRegister _ _ => .base
  | .skipNeReg _ _ => .base
  | .setIndex _ => .base
  | .draw _ _ _ => .base
  | .skipKeyPressed _ => .extIo
  | .skipKeyNotPressed _ => .extIo
  | .getDelay _ => .extIo
  | .waitKey _ => .extIo
  | .setDelay _ => .extIo
  | .setSound _ => .extIo
  | .setIndexFont _ => .extIo

end Sys2Proof
end

