-- ==== Sys2Proof/WellFormed.lean ====
section
/-! DEFINITION. The checks on syntax and parameters. Every operand of an instruction is a bit field of its own
width (R91, R98), so an operand out of range cannot be written; what is left to check is that the instruction
belongs to the profile the core has (R102) and that the parameters meet R11's condition. The assembler's
range checks on operands written as numbers (R104) are in Machine/Assembly.lean. -/

namespace Sys2Proof

/-- An instruction of a core whose EXT_IO is `extIo`: a base instruction always, one of the seven of
45_ext_io.md only with EXT_IO true (R102). -/
def Instr.wellFormed (extIo : Bool) (i : Instr) : Bool :=
  match i.profile with
  | .base => true
  | .extIo => extIo

/-- R11: the font lies below the program region, FONT_BASE + 80 ≤ 0x200. -/
def Params.wf (p : Params) : Bool :=
  decide (p.fontBase.toNat + fontBytes ≤ progBase)

end Sys2Proof
end

