-- ==== Sys2Proof/Decode.lean ====
section
/-! DEFINITION. Decoding (R90 to R102, R190) and, after it, the encoder written from the same table. Decode is
total on every word and on every list of bytes, and rejects by name. -/

namespace Sys2Proof

/-! ### Fields of a word (R12, R91) -/

/-- n1 = w[15:12], the major opcode. -/
def fieldN1 (w : Word) : Nibble := w.extractLsb' 12 4

/-- x = n2 = w[11:8], the first register index. -/
def fieldX (w : Word) : RegIdx := w.extractLsb' 8 4

/-- y = n3 = w[7:4], the second register index. -/
def fieldY (w : Word) : RegIdx := w.extractLsb' 4 4

/-- n = n4 = w[3:0], the row count of Draw. -/
def fieldN (w : Word) : Nibble := w.extractLsb' 0 4

/-- kk = w[7:0], the immediate byte. -/
def fieldKK (w : Word) : Byte := w.extractLsb' 0 8

/-- nnn = w[11:0], the address. -/
def fieldNNN (w : Word) : Addr12 := w.extractLsb' 0 12

/-- R66: an instruction word is big-endian, the byte at the lower address is the high byte. -/
def wordOfBytes (hi lo : Byte) : Word := hi ++ lo

/-- The byte of a word that lies at the lower address (R66). -/
def highByte (w : Word) : Byte := w.extractLsb' 8 8

/-- The byte of a word that lies at the higher address (R66). -/
def lowByte (w : Word) : Byte := w.extractLsb' 0 8

/-! ### The decoder -/

/-- Why decoding rejects its input. -/
inductive DecodeError where
  /-- No pattern matches: the error UnknownOpcode carrying the raw word (R94, R99). -/
  | unknownOpcode (w : Word)
  /-- Fewer than two bytes were given; no tick meets it, since a fetch reads two bytes or fails (R63, R90). -/
  | truncated
deriving DecidableEq, Repr

/-- The seven patterns of R190, each under mask 0xF0FF; they decode only with EXT_IO true. -/
def decodeExtIo (w : Word) : Option Instr :=
  if w &&& 0xF0FF = 0xE09E then some (.skipKeyPressed (fieldX w))
  else if w &&& 0xF0FF = 0xE0A1 then some (.skipKeyNotPressed (fieldX w))
  else if w &&& 0xF0FF = 0xF007 then some (.getDelay (fieldX w))
  else if w &&& 0xF0FF = 0xF00A then some (.waitKey (fieldX w))
  else if w &&& 0xF0FF = 0xF015 then some (.setDelay (fieldX w))
  else if w &&& 0xF0FF = 0xF018 then some (.setSound (fieldX w))
  else if w &&& 0xF0FF = 0xF029 then some (.setIndexFont (fieldX w))
  else none

/-- R94: Decode, a pure function of the word and the parameter EXT_IO, its tests in the order R94 gives them. -/
def decodeWord (extIo : Bool) (w : Word) : Except DecodeError Instr :=
  if w = 0x00E0 then .ok .clearScreen
  else if w = 0x00EE then .ok .ret
  else if fieldN1 w = 0x1 then .ok (.jump (fieldNNN w))
  else if fieldN1 w = 0x2 then .ok (.call (fieldNNN w))
  else if fieldN1 w = 0x3 then .ok (.skipEqVal (fieldX w) (fieldKK w))
  else if fieldN1 w = 0x4 then .ok (.skipNeVal (fieldX w) (fieldKK w))
  else if fieldN1 w = 0x5 ∧ fieldN w = 0 then .ok (.skipEqReg (fieldX w) (fieldY w))
  else if fieldN1 w = 0x9 ∧ fieldN w = 0 then .ok (.skipNeReg (fieldX w) (fieldY w))
  else if fieldN1 w = 0x6 then .ok (.setRegister (fieldX w) (fieldKK w))
  else if fieldN1 w = 0x7 then .ok (.addRegister (fieldX w) (fieldKK w))
  else if fieldN1 w = 0xA then .ok (.setIndex (fieldNNN w))
  else if fieldN1 w = 0xD then .ok (.draw (fieldX w) (fieldY w) (fieldN w))
  else if extIo then
    match decodeExtIo w with
    | some i => .ok i
    | none => .error (.unknownOpcode w)
  else .error (.unknownOpcode w)

/-- Decoding a byte sequence: every instruction is exactly two bytes, big-endian (R66, R90). Answers the
instruction and the bytes after it. -/
def decodeBytes (extIo : Bool) : List Byte → Except DecodeError (Instr × List Byte)
  | hi :: lo :: rest =>
    match decodeWord extIo (wordOfBytes hi lo) with
    | .ok i => .ok (i, rest)
    | .error e => .error e
  | _ => .error .truncated

/-! ### The encoder -/

/-- Format NNN (R92): the major opcode, then the address. -/
def formatNNN (op : Nibble) (nnn : Addr12) : Word := op ++ nnn

/-- Format XKK (R92): the major opcode, the register index, the immediate byte. -/
def formatXKK (op : Nibble) (x : RegIdx) (kk : Byte) : Word := op ++ (x ++ kk)

/-- Formats XY0 and XYN (R92): the major opcode, two register indices, the last nibble. -/
def formatXYN (op : Nibble) (x y : RegIdx) (n : Nibble) : Word := op ++ (x ++ (y ++ n))

/-- The word of an instruction, from the `encoding` column of spec/opcode_table.json (R92, R103, R190). Format
XFF of 45_ext_io.md is XKK with a fixed low byte. -/
def encode : Instr → Word
  | .clearScreen => 0x00E0
  | .ret => 0x00EE
  | .jump nnn => formatNNN 0x1 nnn
  | .call nnn => formatNNN 0x2 nnn
  | .skipEqVal x kk => formatXKK 0x3 x kk
  | .skipNeVal x kk => formatXKK 0x4 x kk
  | .skipEqReg x y => formatXYN 0x5 x y 0
  | .setRegister x kk => formatXKK 0x6 x kk
  | .addRegister x kk => formatXKK 0x7 x kk
  | .skipNeReg x y => formatXYN 0x9 x y 0
  | .setIndex nnn => formatNNN 0xA nnn
  | .draw x y n => formatXYN 0xD x y n
  | .skipKeyPressed x => formatXKK 0xE x 0x9E
  | .skipKeyNotPressed x => formatXKK 0xE x 0xA1
  | .getDelay x => formatXKK 0xF x 0x07
  | .waitKey x => formatXKK 0xF x 0x0A
  | .setDelay x => formatXKK 0xF x 0x15
  | .setSound x => formatXKK 0xF x 0x18
  | .setIndexFont x => formatXKK 0xF x 0x29

/-- The two bytes of an instruction as memory holds them (R66). -/
def encodeBytes (i : Instr) : List Byte := [highByte (encode i), lowByte (encode i)]

/-! ### The opcode table's match and mask columns -/

/-- The `mask` column of the instruction's row in spec/opcode_table.json. -/
def Instr.rowMask : Instr → Word
  | .clearScreen => 0xFFFF
  | .ret => 0xFFFF
  | .jump _ => 0xF000
  | .call _ => 0xF000
  | .skipEqVal _ _ => 0xF000
  | .skipNeVal _ _ => 0xF000
  | .skipEqReg _ _ => 0xF00F
  | .setRegister _ _ => 0xF000
  | .addRegister _ _ => 0xF000
  | .skipNeReg _ _ => 0xF00F
  | .setIndex _ => 0xF000
  | .draw _ _ _ => 0xF000
  | .skipKeyPressed _ => 0xF0FF
  | .skipKeyNotPressed _ => 0xF0FF
  | .getDelay _ => 0xF0FF
  | .waitKey _ => 0xF0FF
  | .setDelay _ => 0xF0FF
  | .setSound _ => 0xF0FF
  | .setIndexFont _ => 0xF0FF

/-- The `match` column of the instruction's row in spec/opcode_table.json. -/
def Instr.rowMatch : Instr → Word
  | .clearScreen => 0x00E0
  | .ret => 0x00EE
  | .jump _ => 0x1000
  | .call _ => 0x2000
  | .skipEqVal _ _ => 0x3000
  | .skipNeVal _ _ => 0x4000
  | .skipEqReg _ _ => 0x5000
  | .setRegister _ _ => 0x6000
  | .addRegister _ _ => 0x7000
  | .skipNeReg _ _ => 0x9000
  | .setIndex _ => 0xA000
  | .draw _ _ _ => 0xD000
  | .skipKeyPressed _ => 0xE09E
  | .skipKeyNotPressed _ => 0xE0A1
  | .getDelay _ => 0xF007
  | .waitKey _ => 0xF00A
  | .setDelay _ => 0xF015
  | .setSound _ => 0xF018
  | .setIndexFont _ => 0xF029

/-! ### The host's view of the opcode table -/

/-- The instruction word of `nbits` bits whose bits are `w`, bit 0 the least significant bit of the one
16-bit word; a bit above `nbits` is 0. -/
def tableWord (nbits w : Nat) : Word := BitVec.ofNat 16 (w % 2 ^ nbits)

/-- The instruction the decoder reads from a word of spec/opcode_table.json. The table lists the rows of both
profiles, so the decoder is asked with EXT_IO true; with this hardware's EXT_IO (false) the seven rows of
45_ext_io.md are UnknownOpcode and the other twelve decode the same (notes/assumptions/4.md). -/
def decodeTableWord (nbits w : Nat) : Option Instr :=
  match decodeBytes true [highByte (tableWord nbits w), lowByte (tableWord nbits w)] with
  | .ok (i, _) => some i
  | .error _ => none

end Sys2Proof
end

