-- ==== Sys2Proof/Machine/Parameters.lean ====
section
/-! DEFINITION. The values this hardware gives the parameters of R11. They are definitions of their own, so that
one of them can be changed without touching the meanings, which take the parameters as an argument. -/

namespace Sys2Proof

/-- FONT_BASE = 0x000 (R11, R49). -/
def fontBaseValue : Addr12 := 0x000

/-- R49: the glyphs 0 to 3, one a line. -/
def glyphs0to3 : Vector Byte 20 :=
  #v[0xF0, 0x90, 0x90, 0x90, 0xF0,
     0x20, 0x60, 0x20, 0x20, 0x70,
     0xF0, 0x10, 0xF0, 0x80, 0xF0,
     0xF0, 0x10, 0xF0, 0x10, 0xF0]

/-- R49: the glyphs 4 to 7, one a line. -/
def glyphs4to7 : Vector Byte 20 :=
  #v[0x90, 0x90, 0xF0, 0x10, 0x10,
     0xF0, 0x80, 0xF0, 0x10, 0xF0,
     0xF0, 0x80, 0xF0, 0x90, 0xF0,
     0xF0, 0x10, 0x20, 0x40, 0x40]

/-- R49: the glyphs 8 to B, one a line. -/
def glyphs8toB : Vector Byte 20 :=
  #v[0xF0, 0x90, 0xF0, 0x90, 0xF0,
     0xF0, 0x90, 0xF0, 0x10, 0xF0,
     0xF0, 0x90, 0xF0, 0x90, 0x90,
     0xE0, 0x90, 0xE0, 0x90, 0xE0]

/-- R49: the glyphs C to F, one a line. -/
def glyphsCtoF : Vector Byte 20 :=
  #v[0xF0, 0x80, 0x80, 0x80, 0xF0,
     0xE0, 0x90, 0x90, 0x90, 0xE0,
     0xF0, 0x80, 0xF0, 0x80, 0xF0,
     0xF0, 0x80, 0xF0, 0x80, 0x80]

/-- FONT_DATA, the table of R49: 16 glyphs of 5 bytes, one row a byte, bit 7 the leftmost pixel. -/
def fontDataValue : Vector Byte fontBytes :=
  ((glyphs0to3 ++ glyphs4to7) ++ glyphs8toB) ++ glyphsCtoF

/-- STACK_LIMIT = none: the call stack is unbounded (R11, R41). -/
def stackLimitValue : Option Nat := none

/-- ORIGIN_Y_MOD = 32 (R11, R172). -/
def originYModValue : OriginYMod := .mod32

/-- EXT_IO = false: the profile of 45_ext_io.md is off (R2, R11, R102). -/
def extIoValue : Bool := false

/-- R11: the parameters of this hardware. -/
def Params.hardware : Params where
  fontBase := fontBaseValue
  fontData := fontDataValue
  stackLimit := stackLimitValue
  originYMod := originYModValue
  extIo := extIoValue

end Sys2Proof
end

