-- ==== Sys2Proof/Machine/State.lean ====
section
/-! DEFINITION. The core's state (R30), the reasons a step stops (R210 and the refusals of R126 and R235), and
CONSTRUCT (R51, R250). -/

namespace Sys2Proof.Machine

/-- R47: the run state. -/
inductive Run where
  /-- Before the first successful LOAD. -/
  | idle
  /-- After the first successful LOAD; nothing sets it back. -/
  | running
deriving DecidableEq, Repr

/-- R43: 64 columns by 32 rows of pixels, row-major; row `y` is entry `y`, and its column `x` is that row's
entry `x`. READ_FB numbers the pixel `x + 64*y` (`readFb`). -/
abbrev Framebuffer := Vector (Vector Bool dispW) dispH

/-- R46: memory, as the bytes that differ from what CONSTRUCT left, addresses strictly rising
(`Memory.wf`); an unlisted address reads as `constructByte` (R51). -/
abbrev Memory := List Host.Cell

/-- R30: the core's state. `params` is the model's own field: it carries the arguments of R11, and nothing ever
writes it after CONSTRUCT (notes/assumptions/1.md). -/
structure State where
  /-- R31: V[0] to V[15]. -/
  v : Vector Byte 16
  /-- R34: the index register I. -/
  i : Word
  /-- R35: the program counter. -/
  pc : Word
  /-- R40: the call stack, the top first. -/
  stack : List Word
  /-- R42: the delay timer. -/
  dt : Byte
  /-- R42: the sound timer. -/
  st : Byte
  /-- R43: the framebuffer. -/
  fb : Framebuffer
  /-- R45: the key map, true while pressed. -/
  key : Vector Bool numKeys
  /-- R46: memory. -/
  mem : Memory
  /-- R47: the run state. -/
  run : Run
  /-- R11: the parameters the core was built with. -/
  params : Params
deriving DecidableEq, Repr

/-- R210: the error kinds. An error ends the tick, which is undone, and is returned to the host (R124, R211);
the state after it is the state before the tick, so no state goes with it. Every one is safe: the spec names
it, and the model stops where the spec's core stops. -/
inductive Fault where
  /-- Code 1. Raised by the fetch (PC ≥ 0x0FFF), by Draw (I + row ≥ 4096) and, with EXT_IO true, by the key
  skips (V[x] > 15). Safe. -/
  | outOfBounds
  /-- Code 2. Raised by LOAD alone, when the bytes do not fit (R256). Safe. -/
  | capacityExceeded
  /-- Code 3. Raised by Return with an empty stack (R141). Safe. -/
  | stackUnderflow
  /-- Code 4. Raised at decode, with the raw word (R99, R122). Safe. -/
  | unknownOpcode (w : Word)
  /-- Code 5. Raised by nothing: a register index is a 4-bit field (R98). Safe. -/
  | invalidRegister
  /-- Code 6. Raised by Call at depth STACK_LIMIT, so never in this hardware (R41, R143). Safe. -/
  | stackOverflow
deriving DecidableEq, Repr

/-- Why the model gives a host's request no meaning. -/
inductive Refusal where
  /-- An instruction of the table whose meaning is not written. Raised by `exec`'s arms; none is left. Safe. -/
  | notModelled (mnemonic : String)
  /-- R126: a tick or ADVANCE while Run = Idle. Raised by `step` and `advance`. Safe: refused runs prove
  nothing. -/
  | advanceWhileIdle
  /-- R235: SUBMIT_KEY with a key id above 15. Raised by `submitKey`. Safe. -/
  | keyIdAbove15
deriving DecidableEq, Repr

/-- R250: CONSTRUCT for given parameters, every component at its value of R51. Memory lists nothing: an
unlisted address reads as CONSTRUCT left it. -/
def State.construct (p : Params) : State where
  v := Vector.replicate 16 0
  i := 0
  pc := 0
  stack := []
  dt := 0
  st := 0
  fb := Vector.replicate dispH (Vector.replicate dispW false)
  key := Vector.replicate numKeys false
  mem := []
  run := .idle
  params := p

/-- R51, R250, R251: the state right after CONSTRUCT, the only reset, with this hardware's parameters. -/
def State.reset : State := State.construct Params.hardware

end Sys2Proof.Machine
end

