-- ==== Sys2Proof/Machine/Ops.lean ====
section
/-! DEFINITION. The named operations over the state: memory (R60 to R70), registers (R31 to R40), the
framebuffer's XOR writer (R170), the key map (R45), the timers (R228), and raising an error (R210, R211). The
core has no trap entry and no return from one (R218, R219): an error goes to the host, and the tick that
raised it is undone, which is why a fault carries no state. -/

namespace Sys2Proof.Machine

/-! ### The outcome of an instruction -/

/-- What a meaning answers. -/
abbrev Result := Host.Outcome State Fault Refusal

/-- R14, R124, R211: `raise E`, which ends the tick with the error and none of its effects. -/
def raise (f : Fault) : Result := .fault f

/-- R210: the number the spec gives each error kind, for a model or a status port that needs one. -/
def Fault.code : Fault → Nat
  | .outOfBounds => 1
  | .capacityExceeded => 2
  | .stackUnderflow => 3
  | .unknownOpcode _ => 4
  | .invalidRegister => 5
  | .stackOverflow => 6

/-- R210, R213: the payload of an error, the raw word for UnknownOpcode and nothing for the others. -/
def Fault.payload : Fault → Option Word
  | .unknownOpcode w => some w
  | .outOfBounds => none
  | .capacityExceeded => none
  | .stackUnderflow => none
  | .invalidRegister => none
  | .stackOverflow => none

/-! ### Memory (R46, R60 to R70) -/

/-- R49, R51: the byte an address holds after CONSTRUCT, FONT_DATA from FONT_BASE on and 0x00 elsewhere. -/
def constructByte (p : Params) (a : Nat) : Byte :=
  if h : p.fontBase.toNat ≤ a ∧ a < p.fontBase.toNat + fontBytes then
    p.fontData[a - p.fontBase.toNat]'(by omega)
  else 0x00

/-- The listed byte of an address, if there is one. -/
def Memory.lookup : Memory → Nat → Option Byte
  | [], _ => none
  | (k, b) :: m, a => if k = a then some b else Memory.lookup m a

/-- Memory with no entry at an address. -/
def Memory.erase : Memory → Nat → Memory
  | [], _ => []
  | (k, b) :: m, a => if k = a then Memory.erase m a else (k, b) :: Memory.erase m a

/-- Memory with an entry at an address, in its place in the order. -/
def Memory.insert : Memory → Nat → Byte → Memory
  | [], a, v => [(a, v)]
  | (k, b) :: m, a, v =>
    if a < k then (a, v) :: (k, b) :: m
    else if k = a then (a, v) :: m
    else (k, b) :: Memory.insert m a v

/-- The byte at an address: the listed one, else CONSTRUCT's. -/
def Memory.read (p : Params) (m : Memory) (a : Nat) : Byte :=
  (Memory.lookup m a).getD (constructByte p a)

/-- Writes one byte; the byte CONSTRUCT left there is not listed. -/
def Memory.write (p : Params) (m : Memory) (a : Nat) (b : Byte) : Memory :=
  if b = constructByte p a then Memory.erase m a else Memory.insert m a b

/-- Writes bytes one after another from an address on. -/
def Memory.writeAll (p : Params) : Memory → Nat → List Byte → Memory
  | m, _, [] => m
  | m, a, b :: bs => Memory.writeAll p (Memory.write p m a b) (a + 1) bs

/-- The canonical form of memory: addresses strictly rising, below 4096, and no entry equal to what an
unlisted address reads as. -/
abbrev Memory.wf (p : Params) (m : Memory) : Prop :=
  m.Pairwise (fun c d => c.1 < d.1) ∧ ∀ c ∈ m, c.1 < memSize ∧ c.2 ≠ constructByte p c.1

/-- Mem[a], for an address in bounds. -/
def State.byteAt (s : State) (a : Nat) : Byte := Memory.read s.params s.mem a

/-- R64: MemRead(a, 1), which fails when the byte is past the end (R61). -/
def memRead1 (s : State) (a : Nat) : Except Fault Byte :=
  if memSize ≤ a then .error .outOfBounds else .ok (s.byteAt a)

/-- R63: MemRead(a, 2), the big-endian word at `a`, which fails when either byte is past the end. -/
def memRead2 (s : State) (a : Nat) : Except Fault Word :=
  if memSize ≤ a + 1 then .error .outOfBounds else .ok (wordOfBytes (s.byteAt a) (s.byteAt (a + 1)))

/-- R65: MemWrite(base, n, bytes), all or nothing. -/
def memWrite (s : State) (base : Nat) (bytes : List Byte) : Except Fault State :=
  if memSize < base + bytes.length then .error .capacityExceeded
  else .ok { s with mem := Memory.writeAll s.params s.mem base bytes }

/-! ### Registers -/

/-- V[x] (R31). -/
def State.getV (s : State) (x : RegIdx) : Byte := s.v[x.toNat]'(x.isLt)

/-- V[x] <- b (R31): no register is hardwired and no two alias. -/
def State.setV (s : State) (x : RegIdx) (b : Byte) : State := { s with v := s.v.set x.toNat b x.isLt }

/-- I <- a (R34). -/
def State.setI (s : State) (a : Word) : State := { s with i := a }

/-- PC <- a (R35, R36). -/
def State.setPc (s : State) (a : Word) : State := { s with pc := a }

/-- R36, R37: PC <- PC + 2, by the fetch and again by a skip that is taken. -/
def State.advancePc (s : State) : State := s.setPc (s.pc + 2)

/-- The call stack replaced, for push and pop (R40). -/
def State.setStack (s : State) (k : List Word) : State := { s with stack := k }

/-- R40: Stack.push(a), at the top. -/
def State.push (s : State) (a : Word) : State := s.setStack (a :: s.stack)

/-- DT <- b (R42). -/
def State.setDt (s : State) (b : Byte) : State := { s with dt := b }

/-- ST <- b (R42). -/
def State.setSt (s : State) (b : Byte) : State := { s with st := b }

/-- The framebuffer replaced (R44). -/
def State.setFb (s : State) (f : Framebuffer) : State := { s with fb := f }

/-- Run <- r (R47). -/
def State.setRun (s : State) (r : Run) : State := { s with run := r }

/-- R41, R143: whether a Call finds the stack full, which it never does with STACK_LIMIT = none. -/
def State.stackFull (s : State) : Bool := s.params.stackLimit = some s.stack.length

/-! ### The framebuffer (R43, R170) -/

/-- FB[x, y] (R43). -/
def Framebuffer.get (f : Framebuffer) (x : Fin dispW) (y : Fin dispH) : Bool := f[y][x]

/-- FB[x, y] <- b (R43). -/
def Framebuffer.set (f : Framebuffer) (x : Fin dispW) (y : Fin dispH) (b : Bool) : Framebuffer :=
  Vector.set f y (Vector.set f[y] x b)

/-- R140: every pixel off. -/
def Framebuffer.clear : Framebuffer := Vector.replicate dispH (Vector.replicate dispW false)

/-- The framebuffer during a draw, and whether a pixel has gone from on to off in it. -/
structure Canvas where
  fb : Framebuffer
  collided : Bool
deriving DecidableEq, Repr

/-- R170: DisplayDraw(px, py, flip): toggles one pixel and reports whether it went from on to off. The types
of px and py say what the caller guarantees (R171). -/
def displayDraw (f : Framebuffer) (px : Fin dispW) (py : Fin dispH) (flip : Bool) : Framebuffer × Bool :=
  (f.set px py (f.get px py ^^ flip), f.get px py && flip)

/-- R174, R176: one DisplayDraw of a draw; a collision once seen stays. -/
def Canvas.plot (c : Canvas) (px : Fin dispW) (py : Fin dispH) (flip : Bool) : Canvas :=
  { fb := (displayDraw c.fb px py flip).1, collided := c.collided || (displayDraw c.fb px py flip).2 }

/-! ### The key map (R45) -/

/-- Key[k] (R45). -/
def State.keyDown (s : State) (k : Fin numKeys) : Bool := s.key[k]

/-- Key[k] <- down (R235). -/
def State.setKey (s : State) (k : Fin numKeys) (down : Bool) : State := { s with key := s.key.set k down }

/-- R194: the least pressed key, if any is pressed. -/
def State.firstKey (s : State) : Option (Fin numKeys) := (List.finRange numKeys).find? s.keyDown

/-! ### The timers (R228) -/

/-- R228: one decrement, saturating at zero. -/
def timerTick (b : Byte) : Byte := if b = 0 then 0 else b - 1

/-! ### Placing an instruction where the next tick fetches it -/

/-- Writes a word, big-endian, at an address (R66). -/
def State.storeWord (s : State) (a : Nat) (w : Word) : State :=
  { s with mem := Memory.writeAll s.params s.mem a [highByte w, lowByte w] }

/-- Whether a word decodes with EXT_IO true and not with EXT_IO false (R102). -/
def needsExtIo (w : Word) : Bool :=
  match decodeWord false w with
  | .ok _ => false
  | .error _ => (decodeExtIo w).isSome

/-- The profile switched on for a word that decodes only with it (notes/assumptions/4.md). -/
def State.withProfileOf (s : State) (w : Word) : State :=
  { s with params := { s.params with extIo := s.params.extIo || needsExtIo w } }

/-- A word placed where the next tick fetches: at PC in a running core whose PC can be fetched from, and else as
LOAD of its two bytes would place it (R256; notes/assumptions/3.md). -/
def placeWord (s : State) (w : Word) : State :=
  if s.run = .running ∧ s.pc.toNat + 1 < memSize then (s.storeWord s.pc.toNat w).withProfileOf w
  else (((s.storeWord progBase w).setPc (BitVec.ofNat 16 progBase)).setRun .running).withProfileOf w

end Sys2Proof.Machine
end

