-- ==== Sys2Proof/Machine/Cycle.lean ====
section
/-! DEFINITION. Steps 1 and 2 of a tick (R121, R122): the fetch and the decode, and the refusal of a tick in the
Idle state (R126). -/

namespace Sys2Proof.Machine

/-- What the fetch and the decode of a tick give. -/
inductive Fetched where
  /-- The instruction, and the state with PC past it. -/
  | ready (i : Instr) (t : State)
  /-- OutOfBounds at the fetch or UnknownOpcode at the decode (R125). -/
  | fault (f : Fault)
  /-- No tick runs while Run = Idle (R126). -/
  | refused (r : Refusal)
deriving DecidableEq, Repr

/-- R122: the decode of the fetched word, in the state the fetch left. -/
def decodeStep (w : Word) (t : State) : Fetched :=
  match decodeWord t.params.extIo w with
  | .ok i => .ready i t
  | .error _ => .fault (.unknownOpcode w)

/-- R121: w <- MemRead(PC, 2), then PC <- PC + 2, then the decode. -/
def fetchStep (s : State) : Fetched :=
  match memRead2 s s.pc.toNat with
  | .error e => .fault e
  | .ok w => decodeStep w s.advancePc

/-- R126: a tick runs only when Run = Running. -/
def nextInstruction (s : State) : Fetched :=
  match s.run with
  | .idle => .refused .advanceWhileIdle
  | .running => fetchStep s

end Sys2Proof.Machine
end

