-- ==== Sys2Proof/Machine/Operands.lean ====
section
/-! DEFINITION. How an instruction's operands become values (R93): a 12-bit address zero-extended, the sprite
origin reduced (R172), one bit of a sprite row (R173), a key id from a register (R191), a glyph's address
(R197). The register and immediate operands need no more than `State.getV` and the field itself. -/

namespace Sys2Proof.Machine

/-- R93: zext_16(nnn). -/
def addrOperand (nnn : Addr12) : Word := nnn.setWidth 16

/-- R172: sx = V[x] mod 64. -/
def originX (s : State) (x : RegIdx) : Nat := (s.getV x).toNat % dispW

/-- R172: sy = V[y] mod ORIGIN_Y_MOD. -/
def originY (s : State) (y : RegIdx) : Nat := (s.getV y).toNat % s.params.originYMod.toNat

/-- R174: I + row, the exact address of a sprite row (R61). -/
def spriteAddr (s : State) (row : Nat) : Nat := s.i.toNat + row

/-- R173: the pixel of a sprite row at column `col` is bit 7 - col. -/
def spriteBit (b : Byte) (col : Nat) : Bool := b.getLsbD (7 - col)

/-- R191, R192: V[x] as a key id, or none when it is above 15. -/
def keyOperand (s : State) (x : RegIdx) : Option (Fin numKeys) :=
  if h : (s.getV x).toNat < numKeys then some ⟨(s.getV x).toNat, h⟩ else none

/-- R197: zext_16(FONT_BASE + 5 * (V[x] mod 16)); the sum is exact. -/
def glyphOperand (s : State) (x : RegIdx) : Word :=
  BitVec.ofNat 16 (s.params.fontBase.toNat + glyphBytes * ((s.getV x).toNat % 16))

end Sys2Proof.Machine
end

