-- ==== Sys2Proof/Machine/Flags.lean ====
section
/-! DEFINITION. The one flag of the core, VF as Draw's collision result (R39, R176), and the results the ALU
computes (R163): an 8-bit sum with no carry (R161) and 8-bit equality (R150 to R153). -/

namespace Sys2Proof.Machine

/-- R176: the value Draw leaves in VF. -/
def collisionFlag (collided : Bool) : Byte := if collided then 1 else 0

/-- R161: (V[x] + kk) mod 256, with no carry recorded. -/
def addByte (a b : Byte) : Byte := a + b

/-- R150 to R154: a skip adds 2 to PC when its condition holds and records nothing. -/
def skipIf (s : State) (condition : Bool) : State := if condition then s.advancePc else s

end Sys2Proof.Machine
end

