-- ==== Sys2Proof/Machine/ControlFlow.lean ====
section
/-! DEFINITION. ClearScreen, Return, Jump and Call (41_control_flow.md). PC already holds the fetch address plus 2
(R121). -/

namespace Sys2Proof.Machine

/-- ClearScreen (R140). -/
def execClearScreen (s : State) : Result := .next (s.setFb Framebuffer.clear)

/-- Return (R141): the popped value is used as it is. -/
def execReturn (s : State) : Result :=
  match s.stack with
  | [] => raise .stackUnderflow
  | top :: rest => .next ((s.setStack rest).setPc top)

/-- Jump (R142). -/
def execJump (nnn : Addr12) (s : State) : Result := .next (s.setPc (addrOperand nnn))

/-- Call (R143): PC is already the Call's address plus 2. -/
def execCall (nnn : Addr12) (s : State) : Result :=
  if s.stackFull then raise .stackOverflow
  else .next ((s.push s.pc).setPc (addrOperand nnn))

end Sys2Proof.Machine
end

