-- ==== Sys2Proof/Machine/Draw.lean ====
section
/-! DEFINITION. Draw (44_draw.md): the sprite algorithm of R174 over the XOR writer of R170. -/

namespace Sys2Proof.Machine

/-- R174, R177: the columns of one sprite row, left to right; the row ends at the display's right edge. -/
def drawColumns (sx : Nat) (py : Fin dispH) (b : Byte) : List Nat → Canvas → Canvas
  | [], c => c
  | col :: cols, c =>
    if h : sx + col < dispW then drawColumns sx py b cols (c.plot ⟨sx + col, h⟩ py (spriteBit b col))
    else c

/-- R174, R178, R179: the rows of a sprite, top to bottom. Each row's byte is read first, which may fail, and
then the row's height is checked: a row at the display's bottom edge ends the whole draw. -/
def drawRows (s : State) (sx sy : Nat) : List Nat → Canvas → Except Fault Canvas
  | [], c => .ok c
  | row :: rows, c =>
    match memRead1 s (spriteAddr s row) with
    | .error e => .error e
    | .ok b =>
      if h : sy + row < dispH then
        drawRows s sx sy rows (drawColumns sx ⟨sy + row, h⟩ b (List.range 8) c)
      else .ok c

/-- Draw (R174). The origin is read before VF is written (R175); VF is 0 when no pixel went from on to off,
with no rows at all too (R176, R180). A failing row undoes the draw: its fault carries no state (R124). -/
def execDraw (x y : RegIdx) (n : Nibble) (s : State) : Result :=
  match drawRows s (originX s x) (originY s y) (List.range n.toNat) ⟨s.fb, false⟩ with
  | .error e => raise e
  | .ok c => .next ((s.setFb c.fb).setV vf (collisionFlag c.collided))

end Sys2Proof.Machine
end

