-- ==== Sys2Proof/Machine/ExtIo.lean ====
section
/-! DEFINITION. The seven instructions of the EXT_IO profile (45_ext_io.md). They decode only with EXT_IO true
(R102), which is not this hardware's value; here is what each does when it runs. -/

namespace Sys2Proof.Machine

/-- SkipKeyPressed (R191). -/
def execSkipKeyPressed (x : RegIdx) (s : State) : Result :=
  match keyOperand s x with
  | none => raise .outOfBounds
  | some k => .next (skipIf s (s.keyDown k))

/-- SkipKeyNotPressed (R192). -/
def execSkipKeyNotPressed (x : RegIdx) (s : State) : Result :=
  match keyOperand s x with
  | none => raise .outOfBounds
  | some k => .next (skipIf s (!s.keyDown k))

/-- GetDelay (R193). -/
def execGetDelay (x : RegIdx) (s : State) : Result := .next (s.setV x s.dt)

/-- WaitKey (R194): the least pressed key, or PC - 2, so that the next tick fetches this WaitKey again. -/
def execWaitKey (x : RegIdx) (s : State) : Result :=
  match s.firstKey with
  | some k => .next (s.setV x (BitVec.ofNat 8 k.val))
  | none => .next (s.setPc (s.pc - 2))

/-- SetDelay (R195). -/
def execSetDelay (x : RegIdx) (s : State) : Result := .next (s.setDt (s.getV x))

/-- SetSound (R196): ST drives no output (R227). -/
def execSetSound (x : RegIdx) (s : State) : Result := .next (s.setSt (s.getV x))

/-- SetIndexFont (R197): the low nibble of V[x] selects the glyph. -/
def execSetIndexFont (x : RegIdx) (s : State) : Result := .next (s.setI (glyphOperand s x))

end Sys2Proof.Machine
end

