-- ==== Sys2Proof/Machine/RegisterOps.lean ====
section
/-! DEFINITION. SetRegister, AddRegister and SetIndex (43_register_ops.md). -/

namespace Sys2Proof.Machine

/-- SetRegister (R160): with x = 15 it writes VF as its destination. -/
def execSetRegister (x : RegIdx) (kk : Byte) (s : State) : Result := .next (s.setV x kk)

/-- AddRegister (R161): mod 256, no carry; with x = 15 the sum goes to VF. -/
def execAddRegister (x : RegIdx) (kk : Byte) (s : State) : Result :=
  .next (s.setV x (addByte (s.getV x) kk))

/-- SetIndex (R162): the address is not checked here. -/
def execSetIndex (nnn : Addr12) (s : State) : Result := .next (s.setI (addrOperand nnn))

end Sys2Proof.Machine
end

