-- ==== Sys2Proof/Machine/Skips.lean ====
section
/-! DEFINITION. The four conditional skips (42_skips.md): unsigned equality of 8-bit values, PC + 2 when the condition
holds, no register and no flag written. -/

namespace Sys2Proof.Machine

/-- SkipEqVal (R150). -/
def execSkipEqVal (x : RegIdx) (kk : Byte) (s : State) : Result := .next (skipIf s (s.getV x == kk))

/-- SkipNeVal (R151). -/
def execSkipNeVal (x : RegIdx) (kk : Byte) (s : State) : Result := .next (skipIf s (s.getV x != kk))

/-- SkipEqReg (R152). -/
def execSkipEqReg (x y : RegIdx) (s : State) : Result := .next (skipIf s (s.getV x == s.getV y))

/-- SkipNeReg (R153). -/
def execSkipNeReg (x y : RegIdx) (s : State) : Result := .next (skipIf s (s.getV x != s.getV y))

end Sys2Proof.Machine
end

