-- ==== Sys2Proof/Machine/Step.lean ====
section
/-! DEFINITION. One tick (R120): fetch, decode, execute. -/

namespace Sys2Proof.Machine

/-- R120, R124: one tick. A fault carries no state: the state after a failing tick is the state before it. -/
def step (s : State) : Host.Outcome State Fault Refusal :=
  match nextInstruction s with
  | .ready i t => exec i t
  | .fault f => raise f
  | .refused r => .refused r

/-- `s` with an instruction word placed where the next tick fetches it (notes/assumptions/3.md and 4.md). -/
def State.withFetchWord (s : State) (nbits w : Nat) : State := placeWord s (tableWord nbits w)

end Sys2Proof.Machine
end

