-- ==== Sys2Proof/Machine/Assembly.lean ====
section
/-! DEFINITION. The assembly syntax (R103, R104): mnemonics, the conventional second names, operands written as
numbers, the range checks of the assembler, the `.byte` directive, and the listing form. None of it bears on
what an instruction does. The forms of the seven EXT_IO instructions are not in R103's table; they follow its
convention (notes/assumptions/12.md). -/

namespace Sys2Proof.Machine

/-- The mnemonics: the source's names, and the conventional CHIP-8 ones R103 accepts beside them. -/
inductive Mnemonic where
  | ClearScreen | Return | Jump | Call | SkipEqVal | SkipNeVal | SkipEqReg | SkipNeReg | SetRegister
  | AddRegister | SetIndex | Draw | SkipKeyPressed | SkipKeyNotPressed | GetDelay | WaitKey | SetDelay
  | SetSound | SetIndexFont
  | CLS | RET | JP | CALL | SE | SNE | LD | ADD | DRW
deriving DecidableEq, Repr

/-- An operand as written: a register `V…`, a number, or the register name `I` of `LD I, addr`. -/
inductive AsmOperand where
  | reg (x : Nat)
  | num (n : Nat)
  | index
deriving DecidableEq, Repr

/-- R104: an operand outside its field is refused. -/
def asField (width n : Nat) : Option (BitVec width) :=
  if n < 2 ^ width then some (BitVec.ofNat width n) else none

/-- An instruction of format NNN from its written operand. -/
def asmNNN (f : Addr12 → Instr) (a : Nat) : Option Instr := (asField 12 a).map f

/-- An instruction of format XKK from its written operands. -/
def asmXKK (f : RegIdx → Byte → Instr) (x k : Nat) : Option Instr :=
  (asField 4 x).bind fun x => (asField 8 k).map (f x)

/-- An instruction of format XY0 from its written operands. -/
def asmXY (f : RegIdx → RegIdx → Instr) (x y : Nat) : Option Instr :=
  (asField 4 x).bind fun x => (asField 4 y).map (f x)

/-- An instruction of format XYN from its written operands. -/
def asmXYN (f : RegIdx → RegIdx → Nibble → Instr) (x y n : Nat) : Option Instr :=
  (asField 4 x).bind fun x => (asField 4 y).bind fun y => (asField 4 n).map (f x y)

/-- An instruction of format XFF from its written operand. -/
def asmX (f : RegIdx → Instr) (x : Nat) : Option Instr := (asField 4 x).map f

/-- R103, R104: a written form as an instruction, or none when the operands do not fit the mnemonic. -/
def assemble : Mnemonic → List AsmOperand → Option Instr
  | .ClearScreen, [] => some .clearScreen
  | .Return, [] => some .ret
  | .Jump, [.num a] => asmNNN .jump a
  | .Call, [.num a] => asmNNN .call a
  | .SkipEqVal, [.reg x, .num k] => asmXKK .skipEqVal x k
  | .SkipNeVal, [.reg x, .num k] => asmXKK .skipNeVal x k
  | .SkipEqReg, [.reg x, .reg y] => asmXY .skipEqReg x y
  | .SkipNeReg, [.reg x, .reg y] => asmXY .skipNeReg x y
  | .SetRegister, [.reg x, .num k] => asmXKK .setRegister x k
  | .AddRegister, [.reg x, .num k] => asmXKK .addRegister x k
  | .SetIndex, [.num a] => asmNNN .setIndex a
  | .Draw, [.reg x, .reg y, .num n] => asmXYN .draw x y n
  | .SkipKeyPressed, [.reg x] => asmX .skipKeyPressed x
  | .SkipKeyNotPressed, [.reg x] => asmX .skipKeyNotPressed x
  | .GetDelay, [.reg x] => asmX .getDelay x
  | .WaitKey, [.reg x] => asmX .waitKey x
  | .SetDelay, [.reg x] => asmX .setDelay x
  | .SetSound, [.reg x] => asmX .setSound x
  | .SetIndexFont, [.reg x] => asmX .setIndexFont x
  | .CLS, [] => some .clearScreen
  | .RET, [] => some .ret
  | .JP, [.num a] => asmNNN .jump a
  | .CALL, [.num a] => asmNNN .call a
  | .SE, [.reg x, .num k] => asmXKK .skipEqVal x k
  | .SE, [.reg x, .reg y] => asmXY .skipEqReg x y
  | .SNE, [.reg x, .num k] => asmXKK .skipNeVal x k
  | .SNE, [.reg x, .reg y] => asmXY .skipNeReg x y
  | .LD, [.reg x, .num k] => asmXKK .setRegister x k
  | .LD, [.index, .num a] => asmNNN .setIndex a
  | .ADD, [.reg x, .num k] => asmXKK .addRegister x k
  | .DRW, [.reg x, .reg y, .num n] => asmXYN .draw x y n
  | _, _ => none

/-- R103: the form an instruction is listed as. -/
def formOf : Instr → Mnemonic × List AsmOperand
  | .clearScreen => (.ClearScreen, [])
  | .ret => (.Return, [])
  | .jump nnn => (.Jump, [.num nnn.toNat])
  | .call nnn => (.Call, [.num nnn.toNat])
  | .skipEqVal x kk => (.SkipEqVal, [.reg x.toNat, .num kk.toNat])
  | .skipNeVal x kk => (.SkipNeVal, [.reg x.toNat, .num kk.toNat])
  | .skipEqReg x y => (.SkipEqReg, [.reg x.toNat, .reg y.toNat])
  | .setRegister x kk => (.SetRegister, [.reg x.toNat, .num kk.toNat])
  | .addRegister x kk => (.AddRegister, [.reg x.toNat, .num kk.toNat])
  | .skipNeReg x y => (.SkipNeReg, [.reg x.toNat, .reg y.toNat])
  | .setIndex nnn => (.SetIndex, [.num nnn.toNat])
  | .draw x y n => (.Draw, [.reg x.toNat, .reg y.toNat, .num n.toNat])
  | .skipKeyPressed x => (.SkipKeyPressed, [.reg x.toNat])
  | .skipKeyNotPressed x => (.SkipKeyNotPressed, [.reg x.toNat])
  | .getDelay x => (.GetDelay, [.reg x.toNat])
  | .waitKey x => (.WaitKey, [.reg x.toNat])
  | .setDelay x => (.SetDelay, [.reg x.toNat])
  | .setSound x => (.SetSound, [.reg x.toNat])
  | .setIndexFont x => (.SetIndexFont, [.reg x.toNat])

/-- An item of a program text: a form, or the directive `.byte b0, b1, …` (R104). -/
inductive AsmItem where
  | form (m : Mnemonic) (operands : List AsmOperand)
  | bytes (bs : List Nat)
deriving DecidableEq, Repr

/-- The bytes of an item, or none when the assembler refuses it. -/
def AsmItem.assemble : AsmItem → Option (List Byte)
  | .form m operands => (Machine.assemble m operands).map encodeBytes
  | .bytes bs => bs.mapM (asField 8)

/-- The bytes of a program text, item after item. -/
def assembleProgram (items : List AsmItem) : Option (List Byte) :=
  (items.mapM AsmItem.assemble).map List.flatten

/-- A hexadecimal digit as the spec writes it. -/
def hexDigit (n : Nat) : Char := ("0123456789ABCDEF".toList[n]?).getD '?'

/-- A number as `digits` hexadecimal digits. -/
def hexDigits : Nat → Nat → List Char
  | 0, _ => []
  | digits + 1, n => hexDigits digits (n / 16) ++ [hexDigit (n % 16)]

/-- The spelling of a mnemonic. -/
def Mnemonic.text : Mnemonic → String
  | .ClearScreen => "ClearScreen"
  | .Return => "Return"
  | .Jump => "Jump"
  | .Call => "Call"
  | .SkipEqVal => "SkipEqVal"
  | .SkipNeVal => "SkipNeVal"
  | .SkipEqReg => "SkipEqReg"
  | .SkipNeReg => "SkipNeReg"
  | .SetRegister => "SetRegister"
  | .AddRegister => "AddRegister"
  | .SetIndex => "SetIndex"
  | .Draw => "Draw"
  | .SkipKeyPressed => "SkipKeyPressed"
  | .SkipKeyNotPressed => "SkipKeyNotPressed"
  | .GetDelay => "GetDelay"
  | .WaitKey => "WaitKey"
  | .SetDelay => "SetDelay"
  | .SetSound => "SetSound"
  | .SetIndexFont => "SetIndexFont"
  | .CLS => "CLS"
  | .RET => "RET"
  | .JP => "JP"
  | .CALL => "CALL"
  | .SE => "SE"
  | .SNE => "SNE"
  | .LD => "LD"
  | .ADD => "ADD"
  | .DRW => "DRW"

/-- A register as R103 writes it, `V0` to `VF`. -/
def regText (x : RegIdx) : String := String.ofList ('V' :: hexDigits 1 x.toNat)

/-- A value in hex with `0x` (R103). -/
def hexText (digits n : Nat) : String := "0x" ++ String.ofList (hexDigits digits n)

/-- An instruction's form as text (R103): addresses in 3 hex digits, immediates in 2, the row count decimal. -/
def instrText (i : Instr) : String :=
  let name := (formOf i).1.text
  match i with
  | .clearScreen => name
  | .ret => name
  | .jump nnn => name ++ " " ++ hexText 3 nnn.toNat
  | .call nnn => name ++ " " ++ hexText 3 nnn.toNat
  | .skipEqVal x kk => name ++ " " ++ regText x ++ ", " ++ hexText 2 kk.toNat
  | .skipNeVal x kk => name ++ " " ++ regText x ++ ", " ++ hexText 2 kk.toNat
  | .skipEqReg x y => name ++ " " ++ regText x ++ ", " ++ regText y
  | .setRegister x kk => name ++ " " ++ regText x ++ ", " ++ hexText 2 kk.toNat
  | .addRegister x kk => name ++ " " ++ regText x ++ ", " ++ hexText 2 kk.toNat
  | .skipNeReg x y => name ++ " " ++ regText x ++ ", " ++ regText y
  | .setIndex nnn => name ++ " " ++ hexText 3 nnn.toNat
  | .draw x y n => name ++ " " ++ regText x ++ ", " ++ regText y ++ ", " ++ toString n.toNat
  | .skipKeyPressed x => name ++ " " ++ regText x
  | .skipKeyNotPressed x => name ++ " " ++ regText x
  | .getDelay x => name ++ " " ++ regText x
  | .waitKey x => name ++ " " ++ regText x
  | .setDelay x => name ++ " " ++ regText x
  | .setSound x => name ++ " " ++ regText x
  | .setIndexFont x => name ++ " " ++ regText x

/-- R104: a line of a listing, `addr: word  form`. -/
def listingLine (addr : Nat) (i : Instr) : String :=
  hexText 3 addr ++ ": " ++ String.ofList (hexDigits 4 (encode i).toNat) ++ "  " ++ instrText i

end Sys2Proof.Machine
end

