-- ==== Sys2Proof/Machine/Transactions.lean ====
section
/-! DEFINITION. The host's operations on a core (R16, R237): LOAD, ADVANCE, READ_FB, SUBMIT_KEY and TICK_TIMERS, each
one atomic transaction (R7, R17). CONSTRUCT is `State.construct`. The host calls them one at a time, and a host
that breaks its duties is given no move (R126, R235, R265). -/

namespace Sys2Proof.Machine

/-- R233: what READ_FB gives, 2048 Booleans in row-major order. -/
abbrev Snapshot := Vector Bool 2048

/-- What an operation gives back to the host (the result column of R16, R237). -/
inductive Reply where
  /-- LOAD and ADVANCE: success. -/
  | ok
  /-- LOAD and ADVANCE: the error, `Err(kind, payload)` (R211). -/
  | err (f : Fault)
  /-- READ_FB: the snapshot. -/
  | snapshot (pixels : Snapshot)
  /-- SUBMIT_KEY and TICK_TIMERS: nothing. -/
  | nothing
deriving DecidableEq, Repr

/-- The host's operations on a core that has been constructed (R16). -/
inductive HostOp where
  /-- LOAD(bytes), a byte sequence of any length. -/
  | load (bytes : List Byte)
  /-- ADVANCE(n), a tick count n ≥ 0 with no bound (R128). -/
  | advance (n : Nat)
  /-- READ_FB(). -/
  | readFb
  /-- SUBMIT_KEY(k, down). -/
  | submitKey (k : Nat) (down : Bool)
  /-- TICK_TIMERS(). -/
  | tickTimers
deriving DecidableEq, Repr

/-- The outcome of a host operation: the state after it and the reply, or a refusal. -/
inductive Answer where
  | answered (s : State) (r : Reply)
  | refused (r : Refusal)
deriving DecidableEq, Repr

/-- LOAD (R256): all or nothing (R255); it keeps everything but PC, Run and the bytes it copies (R52). -/
def load (bytes : List Byte) (s : State) : Answer :=
  match memWrite s progBase bytes with
  | .error e => .answered s (.err e)
  | .ok t => .answered ((t.setPc (BitVec.ofNat 16 progBase)).setRun .running) .ok

/-- R127: up to `n` ticks, stopping at the first error, with the state before the failing tick (R124). -/
def runTicks : Nat → State → Answer
  | 0, s => .answered s .ok
  | n + 1, s =>
    match step s with
    | .next t => runTicks n t
    | .fault f => .answered s (.err f)
    | .refused r => .refused r

/-- ADVANCE (R127), refused while Run = Idle whatever the count (R126). -/
def advance (n : Nat) (s : State) : Answer :=
  match s.run with
  | .idle => .refused .advanceWhileIdle
  | .running => runTicks n s

/-- READ_FB (R233): entry x + 64*y is FB[x, y]. -/
def readFb (s : State) : Snapshot :=
  Vector.ofFn fun k => s.fb.get ⟨k.val % dispW, Nat.mod_lt _ (by decide)⟩ ⟨k.val / dispW, Nat.div_lt_of_lt_mul k.isLt⟩

/-- SUBMIT_KEY (R235): a key id above 15 is refused. -/
def submitKey (k : Nat) (down : Bool) (s : State) : Answer :=
  if h : k < numKeys then .answered (s.setKey ⟨k, h⟩ down) .nothing
  else .refused .keyIdAbove15

/-- TICK_TIMERS (R228): each timer on its own (R225). -/
def tickTimers (s : State) : State := (s.setDt (timerTick s.dt)).setSt (timerTick s.st)

/-- One host operation. -/
def hostStep (op : HostOp) (s : State) : Answer :=
  match op with
  | .load bytes => load bytes s
  | .advance n => advance n s
  | .readFb => .answered s (.snapshot (readFb s))
  | .submitKey k down => submitKey k down s
  | .tickTimers => .answered (tickTimers s) .nothing

/-- The host's operations one after another (R17, R257): the last state and the replies in order, or the first
refusal. -/
def session : List HostOp → State → Except Refusal (State × List Reply)
  | [], s => .ok (s, [])
  | op :: ops, s =>
    match hostStep op s with
    | .refused r => .error r
    | .answered t reply =>
      match session ops t with
      | .error r => .error r
      | .ok (u, replies) => .ok (u, reply :: replies)

end Sys2Proof.Machine
end

