-- ==== Sys2Proof/Safety.lean ====
section
/-! DEFINITION. The words the claims use: which components of the state two states agree on, which components an
instruction may write (R33, R36, R44, R182, R223), what a sprite sets on the display (R173 to R178), and the
invariant of the machine (R34, R37, R41, R42, R47, R52). -/

namespace Sys2Proof.Machine

/-! ### Components and frames -/

/-- The components of the state (R30). -/
inductive Component where
  | v (x : RegIdx)
  | i
  | pc
  | stack
  | dt
  | st
  | fb
  | key
  | mem
  | run
  | params
deriving DecidableEq, Repr

/-- Two states hold the same value in a component; for memory, every byte reads the same. -/
def Component.same : Component → State → State → Prop
  | .v x, s, t => t.getV x = s.getV x
  | .i, s, t => t.i = s.i
  | .pc, s, t => t.pc = s.pc
  | .stack, s, t => t.stack = s.stack
  | .dt, s, t => t.dt = s.dt
  | .st, s, t => t.st = s.st
  | .fb, s, t => t.fb = s.fb
  | .key, s, t => t.key = s.key
  | .mem, s, t => ∀ a, t.byteAt a = s.byteAt a
  | .run, s, t => t.run = s.run
  | .params, s, t => t.params = s.params

/-- Every component but those listed is unchanged from `s` to `t`. -/
def OnlyWrites (written : List Component) (s t : State) : Prop :=
  ∀ c, c ∉ written → c.same s t

/-- What an instruction may write, apart from the fetch's PC + 2 (R33, R36, R44, R182, R223 and the
instruction's own rule). -/
def writesOf : Instr → List Component
  | .clearScreen => [.fb]
  | .ret => [.pc, .stack]
  | .jump _ => [.pc]
  | .call _ => [.pc, .stack]
  | .skipEqVal _ _ => [.pc]
  | .skipNeVal _ _ => [.pc]
  | .skipEqReg _ _ => [.pc]
  | .setRegister x _ => [.v x]
  | .addRegister x _ => [.v x]
  | .skipNeReg _ _ => [.pc]
  | .setIndex _ => [.i]
  | .draw _ _ _ => [.fb, .v vf]
  | .skipKeyPressed _ => [.pc]
  | .skipKeyNotPressed _ => [.pc]
  | .getDelay x => [.v x]
  | .waitKey x => [.v x, .pc]
  | .setDelay _ => [.dt]
  | .setSound _ => [.st]
  | .setIndexFont _ => [.i]

/-! ### The instruction a tick runs -/

/-- The word the next tick fetches, the bytes at PC and PC + 1, the first one the high byte (R63, R121). -/
def wordAtPc (s : State) : Word := wordOfBytes (s.byteAt s.pc.toNat) (s.byteAt (s.pc.toNat + 1))

/-- The next tick of `s` fetches and decodes the instruction `i` (R121, R122, R126). -/
def Fetches (s : State) (i : Instr) : Prop :=
  s.run = .running ∧ s.pc.toNat ≤ 0x0FFE ∧ decodeWord s.params.extIo (wordAtPc s) = .ok i

/-! ### Sprites -/

/-- R174, R178, R179: Draw reads the byte of row `row` when it is the first row or every row above it is on
the display. -/
def rowIsRead (sy row : Nat) : Prop := row = 0 ∨ sy + row ≤ dispH

/-- Every sprite row a Draw of `n` rows reads lies in memory (R61, R174, R179). -/
def spriteReadable (s : State) (sy n : Nat) : Prop :=
  ∀ row, row < n → rowIsRead sy row → spriteAddr s row < memSize

/-- R172 to R178: whether the sprite of `n` rows at I, drawn with its origin at (sx, sy), has a set bit on the
pixel (px, py): the pixel lies in the sprite's 8 columns and n rows, and its row's byte has the column's bit
set, bit 7 the leftmost. -/
def spriteCovers (s : State) (sx sy n : Nat) (px : Fin dispW) (py : Fin dispH) : Bool :=
  decide (sx ≤ px.val ∧ px.val < sx + 8 ∧ sy ≤ py.val ∧ py.val < sy + n) &&
    (s.byteAt (spriteAddr s (py.val - sy))).getLsbD (7 - (px.val - sx))

/-! ### The invariant -/

/-- What holds after CONSTRUCT and is kept by every tick and every host operation. -/
structure Inv (s : State) : Prop where
  /-- The parameters meet R11's condition. -/
  params : s.params.wf = true
  /-- Memory is in canonical form, so equal memories are equal data. -/
  mem : Memory.wf s.params s.mem
  /-- R37: every value PC takes is at most 0x1002. -/
  pc : s.pc.toNat ≤ 0x1002
  /-- R37: every saved PC is a post-fetch PC, at most 0x1000. -/
  stack : ∀ a ∈ s.stack, a.toNat ≤ 0x1000
  /-- R34: I is at most 0x0FFF. -/
  index : s.i.toNat ≤ 0x0FFF
  /-- R41: the stack is never deeper than a finite STACK_LIMIT. -/
  depth : ∀ limit, s.params.stackLimit = some limit → s.stack.length ≤ limit
  /-- R42, R229: with EXT_IO false both timers stay 0. -/
  timers : s.params.extIo = false → s.dt = 0 ∧ s.st = 0
  /-- R47, R252: until the first successful LOAD only the key map may differ from CONSTRUCT's state. -/
  idle : s.run = .idle → s = { State.construct s.params with key := s.key }

/-- The states a host can bring a core with parameters `p` into (R16, R257). -/
inductive Reachable (p : Params) : State → Prop where
  | construct : Reachable p (State.construct p)
  | host {s t : State} {reply : Reply} (op : HostOp) :
      Reachable p s → hostStep op s = .answered t reply → Reachable p t

/-- Two states that differ at most in the key map and the timers (R53). -/
def SameButInputs (s t : State) : Prop := OnlyWrites [.dt, .st, .key] s t ∧ t.mem = s.mem

/-- Why executing an instruction raises an error, and which (R125, step 3). Draw's case is the spec's decisions D2
and D3 (notes/assumptions/6.md, 15.md), Call's D10 (7.md, 19.md), the key skips' D27 (8.md). -/
inductive ExecFails (s : State) : Instr → Fault → Prop where
  | ret : s.stack = [] → ExecFails s .ret .stackUnderflow
  | call (nnn : Addr12) : s.params.stackLimit = some s.stack.length → ExecFails s (.call nnn) .stackOverflow
  | draw (x y : RegIdx) (n : Nibble) :
      ¬ spriteReadable s ((s.getV y).toNat % s.params.originYMod.toNat) n.toNat →
      ExecFails s (.draw x y n) .outOfBounds
  | skipKeyPressed (x : RegIdx) : 15 < (s.getV x).toNat → ExecFails s (.skipKeyPressed x) .outOfBounds
  | skipKeyNotPressed (x : RegIdx) : 15 < (s.getV x).toNat → ExecFails s (.skipKeyNotPressed x) .outOfBounds

/-- Why a tick of a running core raises an error, and which, in step order (R125). -/
inductive TickFails (s : State) : Fault → Prop where
  | fetch : 0x0FFF ≤ s.pc.toNat → TickFails s .outOfBounds
  | decode : s.pc.toNat ≤ 0x0FFE →
      decodeWord s.params.extIo (wordAtPc s) = .error (.unknownOpcode (wordAtPc s)) →
      TickFails s (.unknownOpcode (wordAtPc s))
  | execute {i : Instr} {f : Fault} : Fetches s i → ExecFails s i f → TickFails s f

end Sys2Proof.Machine
end

