-- ==== Sys2Proof/Certificates/Slice0/Obligations.lean ====
section
/-! DEFINITION. The statements for the provers. Each docstring names the rules of spec/ it formalises. -/

open Sys2Proof Sys2Proof.Machine

/-! ### Encoding and decoding -/

/-- R90, R92, R94, R190: decoding an encoded well-formed instruction gives it back, as a word and as the two bytes
memory holds, whatever follows them. -/
def Obligations.DecodeOfEncodeIsTheInstruction : Prop :=
  ∀ (extIo : Bool) (i : Instr), i.wellFormed extIo = true →
    decodeWord extIo (encode i) = .ok i ∧
    ∀ rest, decodeBytes extIo (encodeBytes i ++ rest) = .ok (i, rest)

/-- R92, R94, R190: a word that decodes is the encoding of the one instruction it decodes to, which belongs to the
core's profile; so no two words decode to one instruction. -/
def Obligations.EncodeOfDecodeIsTheWord : Prop :=
  ∀ (extIo : Bool) (w : Word) (i : Instr), decodeWord extIo w = .ok i →
    encode i = w ∧ i.wellFormed extIo = true

/-- R12, R91: the fields of a word, as the numbers their bits make; bit 0 is the least significant. -/
def Obligations.FieldsAreTheNumberedBits : Prop :=
  ∀ w : Word,
    (fieldN1 w).toNat = w.toNat / 4096 ∧ (fieldX w).toNat = w.toNat / 256 % 16 ∧
    (fieldY w).toNat = w.toNat / 16 % 16 ∧ (fieldN w).toNat = w.toNat % 16 ∧
    (fieldKK w).toNat = w.toNat % 256 ∧ (fieldNNN w).toNat = w.toNat % 4096

/-- 30_encoding.md section 2, with the spec's own decision D9 (literal digits are required values): whatever
EXT_IO is, a word with n1 = 0 decodes only as 00E0 or 00EE, and a word with n1 = 5 or 9 only when n4 = 0; every
other such word is UnknownOpcode carrying it. -/
def Obligations.LiteralDigitsAreRequired : Prop :=
  ∀ (extIo : Bool) (w : Word),
    (fieldN1 w = 0x0 →
      decodeWord extIo w =
        if w = 0x00E0 then .ok .clearScreen
        else if w = 0x00EE then .ok .ret
        else .error (.unknownOpcode w)) ∧
    (fieldN1 w = 0x5 →
      decodeWord extIo w =
        if fieldN w = 0 then .ok (.skipEqReg (fieldX w) (fieldY w)) else .error (.unknownOpcode w)) ∧
    (fieldN1 w = 0x9 →
      decodeWord extIo w =
        if fieldN w = 0 then .ok (.skipNeReg (fieldX w) (fieldY w)) else .error (.unknownOpcode w))

/-- R101, R102, R190, with the spec's own decisions D13 and D27: 8xxx, Bxxx and Cxxx are UnknownOpcode whatever
EXT_IO is; Exxx and Fxxx are with EXT_IO false; with EXT_IO true exactly the seven patterns under mask 0xF0FF
decode beside the base set, and the base set decodes the same either way; a word that does not decode is
UnknownOpcode carrying it. -/
def Obligations.ExtIoAddsExactlySevenPatterns : Prop :=
  ∀ w : Word,
    (∀ extIo, fieldN1 w = 0x8 ∨ fieldN1 w = 0xB ∨ fieldN1 w = 0xC →
      decodeWord extIo w = .error (.unknownOpcode w)) ∧
    (fieldN1 w = 0xE ∨ fieldN1 w = 0xF → decodeWord false w = .error (.unknownOpcode w)) ∧
    (∀ extIo e, decodeWord extIo w = .error e → e = .unknownOpcode w) ∧
    (∀ i, i.profile = .base → (decodeWord true w = .ok i ↔ decodeWord false w = .ok i)) ∧
    (∀ x, decodeWord true w = .ok (.skipKeyPressed x) ↔ w &&& 0xF0FF = 0xE09E ∧ x = fieldX w) ∧
    (∀ x, decodeWord true w = .ok (.skipKeyNotPressed x) ↔ w &&& 0xF0FF = 0xE0A1 ∧ x = fieldX w) ∧
    (∀ x, decodeWord true w = .ok (.getDelay x) ↔ w &&& 0xF0FF = 0xF007 ∧ x = fieldX w) ∧
    (∀ x, decodeWord true w = .ok (.waitKey x) ↔ w &&& 0xF0FF = 0xF00A ∧ x = fieldX w) ∧
    (∀ x, decodeWord true w = .ok (.setDelay x) ↔ w &&& 0xF0FF = 0xF015 ∧ x = fieldX w) ∧
    (∀ x, decodeWord true w = .ok (.setSound x) ↔ w &&& 0xF0FF = 0xF018 ∧ x = fieldX w) ∧
    (∀ x, decodeWord true w = .ok (.setIndexFont x) ↔ w &&& 0xF0FF = 0xF029 ∧ x = fieldX w)

/-- A few words of 95_test_vectors.md (DE-1, DE-2, DE-6, DE-8, WE-4, DR-2, DE-23, DE-11, DE-21, DE-24) decode to what
they stand for. -/
def Obligations.WrittenOutWordsDecode : Prop :=
  decodeWord false 0x00E0 = .ok .clearScreen ∧ decodeWord false 0x00EE = .ok .ret ∧
  decodeWord false 0x1ABC = .ok (.jump 0xABC) ∧ decodeWord false 0x3A55 = .ok (.skipEqVal 0xA 0x55) ∧
  decodeWord false 0x720A = .ok (.addRegister 2 0x0A) ∧ decodeWord false 0xD231 = .ok (.draw 2 3 1) ∧
  decodeWord true 0xF329 = .ok (.setIndexFont 3) ∧
  decodeWord false 0x5121 = .error (.unknownOpcode 0x5121) ∧
  decodeWord false 0xE09E = .error (.unknownOpcode 0xE09E) ∧
  decodeWord true 0xF008 = .error (.unknownOpcode 0xF008)

/-- R103, R104, the spec's own decision D19: every instruction's written form assembles to it; the assembler
refuses, under each mnemonic and each conventional name, an address above 0xFFF, an immediate above 0xFF, and a
register or a row count above 15; and what it accepts it takes as written: the operands of the instruction it gives
are the written ones, after the `I` of `LD I, addr`. The forms of the seven EXT_IO instructions are in no table of
the spec: they are the model's own (notes/assumptions/12.md, PRESUMED), and so are the clauses about them. -/
def Obligations.WrittenFormAssemblesBack : Prop :=
  (∀ i : Instr, assemble (formOf i).1 (formOf i).2 = some i) ∧
  (∀ m ∈ [Mnemonic.Jump, .Call, .SetIndex, .JP, .CALL], ∀ a : Nat, 0xFFF < a → assemble m [.num a] = none) ∧
  (∀ a : Nat, 0xFFF < a → assemble .LD [.index, .num a] = none) ∧
  (∀ m ∈ [Mnemonic.SkipEqVal, .SkipNeVal, .SetRegister, .AddRegister, .SE, .SNE, .LD, .ADD], ∀ x kk : Nat,
    15 < x ∨ 0xFF < kk → assemble m [.reg x, .num kk] = none) ∧
  (∀ m ∈ [Mnemonic.SkipEqReg, .SkipNeReg, .SE, .SNE], ∀ x y : Nat,
    15 < x ∨ 15 < y → assemble m [.reg x, .reg y] = none) ∧
  (∀ m ∈ [Mnemonic.Draw, .DRW], ∀ x y n : Nat,
    15 < x ∨ 15 < y ∨ 15 < n → assemble m [.reg x, .reg y, .num n] = none) ∧
  (∀ m ∈ [Mnemonic.SkipKeyPressed, .SkipKeyNotPressed, .GetDelay, .WaitKey, .SetDelay, .SetSound, .SetIndexFont],
    ∀ x : Nat, 15 < x → assemble m [.reg x] = none) ∧
  (∀ (m : Mnemonic) (ops : List AsmOperand) (i : Instr), assemble m ops = some i →
    ops = (formOf i).2 ∨ (m = .LD ∧ ops = .index :: (formOf i).2))

/-! ### The tick -/

/-- R63: the read of two bytes, big-endian and checked at both. -/
def Obligations.ReadOfTwoBytesIsBigEndianAndChecked : Prop :=
  ∀ (s : State) (a : Nat),
    (a + 1 < 4096 → ∃ w, memRead2 s a = .ok w ∧ w.toNat = (s.byteAt a).toNat * 256 + (s.byteAt (a + 1)).toNat) ∧
    (4096 ≤ a + 1 → memRead2 s a = .error .outOfBounds)

/-- 20_memory.md section 2, the read of one byte, which the spec derives from R61: checked, at any address. -/
def Obligations.ReadOfOneByteIsChecked : Prop :=
  ∀ (s : State) (a : Nat),
    (a < 4096 → memRead1 s a = .ok (s.byteAt a)) ∧ (4096 ≤ a → memRead1 s a = .error .outOfBounds)

/-- R121: a tick whose fetched word decodes to `i` is `exec i` in the state whose PC is 2 higher, an exact sum; a
PC the fetch cannot read from ends the tick with OutOfBounds. -/
def Obligations.StepRunsTheDecodedInstruction : Prop :=
  (∀ (s : State) (i : Instr), Fetches s i →
    step s = exec i (s.setPc (s.pc + 2)) ∧ (s.pc + 2).toNat = s.pc.toNat + 2) ∧
  (∀ s : State, s.run = .running → 0x0FFF ≤ s.pc.toNat → step s = .fault .outOfBounds)

/-- R122: a word the decoder does not recognise ends the tick with UnknownOpcode carrying it, and aborts the
remaining ticks of the ADVANCE. -/
def Obligations.UnknownWordEndsTheAdvance : Prop :=
  ∀ s : State, s.run = .running → s.pc.toNat ≤ 0x0FFE →
    decodeWord s.params.extIo (wordAtPc s) = .error (.unknownOpcode (wordAtPc s)) →
    step s = .fault (.unknownOpcode (wordAtPc s)) ∧
    ∀ n, ∃ t, advance (n + 1) s = .answered t (.err (.unknownOpcode (wordAtPc s)))

/-- R126, the spec's own decision D8: in the Idle state a tick and ADVANCE, of any count, are refused. -/
def Obligations.IdleCoreRefusesAdvance : Prop :=
  ∀ s : State, s.run = .idle →
    step s = .refused .advanceWhileIdle ∧ ∀ n, advance n s = .refused .advanceWhileIdle

/-- R125, which the spec derives from R121 to R124 and the instruction rules: a tick of a running core raises an
error exactly when one of the listed causes holds, and then that error; in step order the first one ends it. Among
the causes (`ExecFails`), the rows a Draw reads rest on the spec's own decisions D2 (ORIGIN_Y_MOD,
notes/assumptions/6.md) and D3 (the byte before the height check, 15.md); a Call's overflow at a finite STACK_LIMIT
on D10 (7.md, 19.md); and a key skip's OutOfBounds above 15 on general knowledge and D27 (8.md). -/
def Obligations.TickRaisesExactlyTheListedErrors : Prop :=
  ∀ (s : State) (f : Fault), s.run = .running → (step s = .fault f ↔ TickFails s f)

/-- R98 and, for StackOverflow, R41, the spec's own decisions D28 and D10: InvalidRegister is never raised, by a
tick or by an operation of the host; CapacityExceeded is never raised by a tick, and StackOverflow only with a
finite STACK_LIMIT. -/
def Obligations.InvalidRegisterIsNeverRaised : Prop :=
  (∀ (s : State) (f : Fault), step s = .fault f →
    f ≠ .invalidRegister ∧ f ≠ .capacityExceeded ∧ (s.params.stackLimit = none → f ≠ .stackOverflow)) ∧
  (∀ (op : HostOp) (s t : State), hostStep op s ≠ .answered t (.err .invalidRegister))

/-- R221: every decoded instruction may run at every tick; no tick of a running core is refused. -/
def Obligations.RunningCoreRefusesNothing : Prop :=
  (∀ (i : Instr) (s : State) (r : Refusal), exec i s ≠ .refused r) ∧
  (∀ (s : State) (r : Refusal), step s = .refused r → s.run = .idle)

/-- R36: the ways PC changes: those of a tick, LOAD's 0x200, CONSTRUCT's 0x0000; a failing tick leaves it (the
spec's own decision D4), and no other host operation writes it. (A WaitKey that repeats is R194's, with EXT_IO
true.) -/
def Obligations.PcChangesOnlyInTheListedWays : Prop :=
  (∀ s t : State, step s = .next t → ∃ i, Fetches s i ∧
    (t.pc.toNat = s.pc.toNat + 2 ∨
     (t.pc.toNat = s.pc.toNat + 4 ∧
       ((∃ x kk, i = .skipEqVal x kk ∨ i = .skipNeVal x kk) ∨
        (∃ x y, i = .skipEqReg x y ∨ i = .skipNeReg x y) ∨
        (∃ x, i = .skipKeyPressed x ∨ i = .skipKeyNotPressed x))) ∨
     (∃ nnn, (i = .jump nnn ∨ i = .call nnn) ∧ t.pc.toNat = nnn.toNat) ∨
     (i = .ret ∧ s.stack.head? = some t.pc) ∨
     (∃ x, i = .waitKey x ∧ s.params.extIo = true ∧ t.pc = s.pc))) ∧
  (∀ (s : State) (f : Fault), step s = .fault f → advance 1 s = .answered s (.err f)) ∧
  (∀ (op : HostOp) (s t : State) (r : Reply), hostStep op s = .answered t r →
    t.pc = s.pc ∨ (∃ bytes, op = .load bytes ∧ r = .ok ∧ t.pc = 0x200) ∨ ∃ n, op = .advance n) ∧
  (∀ p, (State.construct p).pc = 0)

/-- R142, R130: a Jump to its own address runs for ever without an error and changes nothing: ADVANCE of any count
answers Ok with the state as it was. -/
def Obligations.JumpToItselfIsNoFault : Prop :=
  ∀ (nnn : Addr12) (s : State), Fetches s (.jump nnn) → s.pc.toNat = nnn.toNat →
    ∀ n, advance n s = .answered s .ok

/-! ### ClearScreen and control transfer -/

/-- R140: the word 00E0 is ClearScreen; it turns every pixel off and writes nothing else. -/
def Obligations.ClearScreenTurnsEveryPixelOff : Prop :=
  (∀ extIo w, w = 0x00E0 ↔ decodeWord extIo w = .ok .clearScreen) ∧
  ∀ s : State, ∃ t, exec .clearScreen s = .next t ∧
    (∀ x y, t.fb.get x y = false) ∧ OnlyWrites [.fb] s t

/-- R141, with the spec's own decisions D26 (no check of the popped value) and D4 (a failing tick is undone):
Return pops the top of the stack into PC as it is, even a value past memory, which makes the next fetch fail; with
an empty stack it raises StackUnderflow and the tick is undone. -/
def Obligations.ReturnPopsTheStackIntoPc : Prop :=
  (∀ (s : State) (top : Word) (rest : List Word), s.stack = top :: rest →
    ∃ t, exec .ret s = .next t ∧ t.pc = top ∧ t.stack = rest ∧ OnlyWrites [.pc, .stack] s t ∧
      (s.run = .running → 0x0FFF ≤ top.toNat → step t = .fault .outOfBounds)) ∧
  (∀ s : State, s.stack = [] → exec .ret s = .fault .stackUnderflow) ∧
  (∀ s : State, Fetches s .ret → s.stack = [] → advance 1 s = .answered s (.err .stackUnderflow))

/-- R142: 1nnn is Jump; it sets PC to the zero-extended address, odd or below 0x200 as it may be, and writes
nothing else; a target of 0xFFF makes the next fetch fail. -/
def Obligations.JumpSetsPc : Prop :=
  ∀ (nnn : Addr12) (s : State), (∀ extIo, decodeWord extIo (formatNNN 0x1 nnn) = .ok (.jump nnn)) ∧
    ∃ t, exec (.jump nnn) s = .next t ∧ t.pc.toNat = nnn.toNat ∧ OnlyWrites [.pc] s t ∧
      (s.run = .running → nnn = 0xFFF → step t = .fault .outOfBounds)

/-- R143, R41, with the spec's own decisions D10 (STACK_LIMIT) and D4 (a failing tick is undone): 2nnn is Call;
it pushes PC (already past the Call) and sets PC to the zero-extended address; at a finite STACK_LIMIT it raises
StackOverflow and the tick is undone, and with none it always completes. -/
def Obligations.CallPushesPcAndJumps : Prop :=
  (∀ (extIo : Bool) (nnn : Addr12), decodeWord extIo (formatNNN 0x2 nnn) = .ok (.call nnn)) ∧
  (∀ (nnn : Addr12) (s : State), s.params.stackLimit ≠ some s.stack.length →
    ∃ t, exec (.call nnn) s = .next t ∧ t.stack = s.pc :: s.stack ∧ t.pc.toNat = nnn.toNat ∧
      OnlyWrites [.pc, .stack] s t) ∧
  (∀ (nnn : Addr12) (s : State), s.params.stackLimit = some s.stack.length →
    exec (.call nnn) s = .fault .stackOverflow) ∧
  (∀ (nnn : Addr12) (s : State), Fetches s (.call nnn) → s.params.stackLimit = some s.stack.length →
    advance 1 s = .answered s (.err .stackOverflow))

/-- R144, which the spec derives from R141 and R143: a Call, then any code that leaves the stack as it found it,
then a Return: the Return resumes at the address after the Call with the stack as before it, and neither saves or
restores a register. -/
def Obligations.ReturnResumesAfterItsCall : Prop :=
  ∀ (s t u : State) (nnn : Addr12), Fetches s (.call nnn) → step s = .next t →
    u.stack = t.stack → Fetches u .ret →
    ∃ w, step u = .next w ∧ w.pc.toNat = s.pc.toNat + 2 ∧ w.stack = s.stack ∧
      OnlyWrites [.pc, .stack] s t ∧ OnlyWrites [.pc, .stack] u w

/-! ### Skips -/

/-- R150, R151: 3xkk and 4xkk are the value skips; each adds 2 to the post-fetch PC when its condition holds,
leaves PC as it is otherwise, and writes no register and no flag; a skip to 0xFFF or above makes the next fetch
fail. -/
def Obligations.ValueSkipsAddTwoWhenTheirConditionHolds : Prop :=
  ∀ (x : RegIdx) (kk : Byte) (s : State),
    (∀ extIo, decodeWord extIo (formatXKK 0x3 x kk) = .ok (.skipEqVal x kk) ∧
      decodeWord extIo (formatXKK 0x4 x kk) = .ok (.skipNeVal x kk)) ∧
    (∃ t, exec (.skipEqVal x kk) s = .next t ∧
      t.pc = (if s.getV x = kk then s.pc + 2 else s.pc) ∧ OnlyWrites [.pc] s t ∧
      (s.run = .running → 0x0FFF ≤ t.pc.toNat → step t = .fault .outOfBounds)) ∧
    (∃ t, exec (.skipNeVal x kk) s = .next t ∧
      t.pc = (if s.getV x = kk then s.pc else s.pc + 2) ∧ OnlyWrites [.pc] s t)

/-- R152, R153 (5xy0 and 9xy0 alone, by the spec's own decision D9): each register skip adds 2 to the post-fetch
PC when its condition holds, leaves PC as it is otherwise, and writes no register and no flag; with x = y the
first always skips and the second never. -/
def Obligations.RegisterSkipsAddTwoWhenTheirConditionHolds : Prop :=
  ∀ (x y : RegIdx) (s : State),
    (∀ extIo, decodeWord extIo (formatXYN 0x5 x y 0) = .ok (.skipEqReg x y) ∧
      decodeWord extIo (formatXYN 0x9 x y 0) = .ok (.skipNeReg x y)) ∧
    (∃ t, exec (.skipEqReg x y) s = .next t ∧
      t.pc = (if s.getV x = s.getV y then s.pc + 2 else s.pc) ∧ OnlyWrites [.pc] s t ∧
      (x = y → t.pc = s.pc + 2)) ∧
    (∃ t, exec (.skipNeReg x y) s = .next t ∧
      t.pc = (if s.getV x = s.getV y then s.pc else s.pc + 2) ∧ OnlyWrites [.pc] s t ∧
      (x = y → t.pc = s.pc))

/-- R154, which the spec derives from R150 to R153 and R121: a tick of a skip at address `a` leaves PC at a + 4
when its condition holds and at a + 2 otherwise, and of each complementary pair with the same operands exactly one
skips in any state. -/
def Obligations.SkipTickMovesPcByFourOrTwo : Prop :=
  (∀ (x y : RegIdx) (kk : Byte) (s : State),
    (Fetches s (.skipEqVal x kk) →
      ∃ t, step s = .next t ∧ t.pc.toNat = s.pc.toNat + (if s.getV x = kk then 4 else 2)) ∧
    (Fetches s (.skipNeVal x kk) →
      ∃ t, step s = .next t ∧ t.pc.toNat = s.pc.toNat + (if s.getV x = kk then 2 else 4)) ∧
    (Fetches s (.skipEqReg x y) →
      ∃ t, step s = .next t ∧ t.pc.toNat = s.pc.toNat + (if s.getV x = s.getV y then 4 else 2)) ∧
    (Fetches s (.skipNeReg x y) →
      ∃ t, step s = .next t ∧ t.pc.toNat = s.pc.toNat + (if s.getV x = s.getV y then 2 else 4))) ∧
  (∀ (x y : RegIdx) (kk : Byte) (s : State),
    (∃ t u, exec (.skipEqVal x kk) s = .next t ∧ exec (.skipNeVal x kk) s = .next u ∧
      ((t.pc = s.pc + 2 ∧ u.pc = s.pc) ∨ (t.pc = s.pc ∧ u.pc = s.pc + 2))) ∧
    (∃ t u, exec (.skipEqReg x y) s = .next t ∧ exec (.skipNeReg x y) s = .next u ∧
      ((t.pc = s.pc + 2 ∧ u.pc = s.pc) ∨ (t.pc = s.pc ∧ u.pc = s.pc + 2))))

/-! ### Register and index operations -/

/-- R160, with the spec's own decision D21 for x = 15: 6xkk is SetRegister; it writes kk to V[x], VF included, and
nothing else. -/
def Obligations.SetRegisterWritesTheImmediate : Prop :=
  ∀ (x : RegIdx) (kk : Byte) (s : State),
    (∀ extIo, decodeWord extIo (formatXKK 0x6 x kk) = .ok (.setRegister x kk)) ∧
    ∃ t, exec (.setRegister x kk) s = .next t ∧ t.getV x = kk ∧ OnlyWrites [.v x] s t

/-- R161, with the spec's own decision D21 for x = 15: 7xkk is AddRegister; it writes (V[x] + kk) mod 256 to V[x]
and nothing else: no carry, and VF unchanged unless x is 15. -/
def Obligations.AddRegisterWrapsAndLeavesVf : Prop :=
  ∀ (x : RegIdx) (kk : Byte) (s : State),
    (∀ extIo, decodeWord extIo (formatXKK 0x7 x kk) = .ok (.addRegister x kk)) ∧
    ∃ t, exec (.addRegister x kk) s = .next t ∧
      (t.getV x).toNat = ((s.getV x).toNat + kk.toNat) % 256 ∧ OnlyWrites [.v x] s t ∧
      (x ≠ 15 → t.getV 15 = s.getV 15)

/-- R162: Annn is SetIndex; it writes the zero-extended address to I, whose top 4 bits are then 0, and nothing
else. -/
def Obligations.SetIndexWritesTheAddress : Prop :=
  ∀ (nnn : Addr12) (s : State), (∀ extIo, decodeWord extIo (formatNNN 0xA nnn) = .ok (.setIndex nnn)) ∧
    ∃ t, exec (.setIndex nnn) s = .next t ∧
      t.i.toNat = nnn.toNat ∧ t.i.extractLsb' 12 4 = 0 ∧ OnlyWrites [.i] s t

/-! ### The framebuffer and Draw -/

/-- R170: DisplayDraw toggles one pixel by XOR with `flip`, leaves every other pixel, and reports exactly a pixel
that goes from on to off. -/
def Obligations.DisplayDrawTogglesOnePixel : Prop :=
  ∀ (f : Framebuffer) (px : Fin 64) (py : Fin 32) (flip : Bool),
    (displayDraw f px py flip).1.get px py = (f.get px py ^^ flip) ∧
    (∀ x y, (x, y) ≠ (px, py) → (displayDraw f px py flip).1.get x y = f.get x y) ∧
    ((displayDraw f px py flip).2 = true ↔
      f.get px py = true ∧ (displayDraw f px py flip).1.get px py = false)

/-- R172 to R179, with the spec's own decisions D2 (the origin's row), D3 (the byte is read before the height
check) and D21 (x or y = 15): Dxyn is Draw; one whose sprite rows lie in memory completes; every pixel is toggled
exactly where the sprite, its origin reduced and its edges clipped, has a set bit; VF is 1 exactly when such a
pixel was on, and 0 otherwise; the origin is that of V[x] and V[y] before VF is written; nothing else changes. -/
def Obligations.DrawTogglesExactlyTheSpritePixels : Prop :=
  (∀ (x y : RegIdx) (n : Nibble) (extIo : Bool), decodeWord extIo (formatXYN 0xD x y n) = .ok (.draw x y n)) ∧
  ∀ (x y : RegIdx) (n : Nibble) (s : State),
    spriteReadable s ((s.getV y).toNat % s.params.originYMod.toNat) n.toNat →
    ∃ t, exec (.draw x y n) s = .next t ∧
      (∀ px py, t.fb.get px py =
        (s.fb.get px py ^^
          spriteCovers s ((s.getV x).toNat % 64) ((s.getV y).toNat % s.params.originYMod.toNat) n.toNat px py)) ∧
      ((∃ px py, s.fb.get px py = true ∧ t.fb.get px py = false) → t.getV 15 = 1) ∧
      ((∀ px py, s.fb.get px py = true → t.fb.get px py = true) → t.getV 15 = 0) ∧
      OnlyWrites [.fb, .v 15] s t

/-- R174, R179, with the spec's own decisions D2, D3 and D4: a Draw raises OutOfBounds exactly when it reaches a
row whose byte lies past memory, even a row the display's height would cut off, and raises nothing else; the tick
is then undone, the toggled pixels and VF included. -/
def Obligations.DrawPastMemoryIsUndone : Prop :=
  ∀ (x y : RegIdx) (n : Nibble) (s : State),
    (exec (.draw x y n) s = .fault .outOfBounds ↔
      ¬ spriteReadable s ((s.getV y).toNat % s.params.originYMod.toNat) n.toNat) ∧
    (∀ f, exec (.draw x y n) s = .fault f → f = .outOfBounds) ∧
    (Fetches s (.draw x y n) →
      ¬ spriteReadable s ((s.getV y).toNat % s.params.originYMod.toNat) n.toNat →
      advance 1 s = .answered s (.err .outOfBounds))

/-- R172, the spec's own decision D2: the origin's column is below 64; with ORIGIN_Y_MOD = 32, this hardware's
value, its row is below 32; with 64 an origin whose row is 32 to 63 draws nothing and leaves VF = 0. -/
def Obligations.OriginIsReducedBeforeDrawing : Prop :=
  Params.hardware.originYMod = .mod32 ∧
  ∀ (x y : RegIdx) (n : Nibble) (s : State),
    originX s x = (s.getV x).toNat % 64 ∧ originX s x < 64 ∧
    (s.params.originYMod = .mod32 → originY s y = (s.getV y).toNat % 32 ∧ originY s y < 32) ∧
    (s.params.originYMod = .mod64 → originY s y = (s.getV y).toNat % 64 ∧
      (32 ≤ originY s y → ∀ t, exec (.draw x y n) s = .next t → t.fb = s.fb ∧ t.getV 15 = 0))

/-- R180, which the spec derives from R174: Draw with n = 0 reads no memory, so it completes whatever I is; it
toggles no pixel and sets VF to 0. -/
def Obligations.DrawOfNoRowsOnlyClearsVf : Prop :=
  ∀ (x y : RegIdx) (s : State), ∃ t, exec (.draw x y 0) s = .next t ∧
    t.fb = s.fb ∧ t.getV 15 = 0 ∧ OnlyWrites [.v 15] s t

/-- R181, which the spec derives from R170 and R174: after a Draw, the same sprite (the same I, bytes, origin and
n) drawn again with nothing drawn in between returns every pixel to its value before the first Draw; VF is then 1
exactly when some set bit of the sprite falls on a pixel that was off before the first, and 0 otherwise. -/
def Obligations.DrawIsItsOwnInverse : Prop :=
  ∀ (s t u : State) (x y x' y' : RegIdx) (n : Nibble),
    exec (.draw x y n) s = .next t →
    u.fb = t.fb → u.i = s.i →
    (∀ row, row < n.toNat → u.byteAt (s.i.toNat + row) = s.byteAt (s.i.toNat + row)) →
    originX u x' = originX s x → originY u y' = originY s y →
    ∃ w, exec (.draw x' y' n) u = .next w ∧ w.fb = s.fb ∧
      (w.getV 15 = 0 ∨ w.getV 15 = 1) ∧
      (w.getV 15 = 1 ↔
        ∃ px py, spriteCovers s (originX s x) (originY s y) n.toNat px py = true ∧ s.fb.get px py = false)

/-! ### The EXT_IO profile -/

/-- R191, R192, from general knowledge and the spec's own decision D27: the key skips add 2 to PC when the key
V[x] names is, or is not, pressed, and raise OutOfBounds when V[x] is above 15. -/
def Obligations.KeySkipsTestTheNamedKey : Prop :=
  ∀ (x : RegIdx) (s : State),
    (∀ k : Fin 16, (s.getV x).toNat = k.val →
      (∃ t, exec (.skipKeyPressed x) s = .next t ∧
        t.pc = (if s.keyDown k then s.pc + 2 else s.pc) ∧ OnlyWrites [.pc] s t) ∧
      (∃ t, exec (.skipKeyNotPressed x) s = .next t ∧
        t.pc = (if s.keyDown k then s.pc else s.pc + 2) ∧ OnlyWrites [.pc] s t)) ∧
    (15 < (s.getV x).toNat →
      exec (.skipKeyPressed x) s = .fault .outOfBounds ∧ exec (.skipKeyNotPressed x) s = .fault .outOfBounds)

/-- R193, R195, R196, from general knowledge (D27): GetDelay copies DT to V[x], SetDelay copies V[x] to DT,
SetSound copies V[x] to ST, and none writes anything else. -/
def Obligations.TimerInstructionsCopyOneByte : Prop :=
  ∀ (x : RegIdx) (s : State),
    (∃ t, exec (.getDelay x) s = .next t ∧ t.getV x = s.dt ∧ OnlyWrites [.v x] s t) ∧
    (∃ t, exec (.setDelay x) s = .next t ∧ t.dt = s.getV x ∧ OnlyWrites [.dt] s t) ∧
    (∃ t, exec (.setSound x) s = .next t ∧ t.st = s.getV x ∧ OnlyWrites [.st] s t)

/-- R194, from general knowledge and the spec's own decision D27: WaitKey writes the least pressed key to V[x];
with no key pressed a tick of it changes nothing, so the next tick fetches it again. -/
def Obligations.WaitKeyTakesTheLeastPressedKey : Prop :=
  (∀ (x : RegIdx) (s : State) (k : Fin 16), s.keyDown k = true → (∀ j, j < k → s.keyDown j = false) →
    ∃ t, exec (.waitKey x) s = .next t ∧ (t.getV x).toNat = k.val ∧ OnlyWrites [.v x] s t) ∧
  (∀ (x : RegIdx) (s : State), (∀ k, s.keyDown k = false) →
    ∃ t, exec (.waitKey x) s = .next t ∧ t.pc = s.pc - 2 ∧ OnlyWrites [.pc] s t) ∧
  (∀ (x : RegIdx) (s : State), (∀ k, s.keyDown k = false) → Fetches s (.waitKey x) → step s = .next s)

/-- R197, from general knowledge and the spec's own decision D27: SetIndexFont writes FONT_BASE + 5 * (V[x] mod
16) to I and nothing else. -/
def Obligations.SetIndexFontPointsAtTheGlyph : Prop :=
  ∀ (x : RegIdx) (s : State), ∃ t, exec (.setIndexFont x) s = .next t ∧
    t.i.toNat = s.params.fontBase.toNat + 5 * ((s.getV x).toNat % 16) ∧ OnlyWrites [.i] s t

/-! ### Whole-machine rules -/

/-- R33, R36, R44, R182, R223: an instruction that completes writes only the components its rule names. -/
def Obligations.InstructionsWriteOnlyTheirComponents : Prop :=
  ∀ (i : Instr) (s t : State), exec i s = .next t → OnlyWrites (writesOf i) s t

/-- R50, which the spec derives from R65 and R256: no tick writes memory, and no host operation writes below
0x200, so the font survives. -/
def Obligations.NothingWritesTheReservedRegion : Prop :=
  (∀ s t : State, step s = .next t → ∀ a, t.byteAt a = s.byteAt a) ∧
  (∀ (op : HostOp) (s t : State) (r : Reply), hostStep op s = .answered t r →
    ∀ a, a < 0x200 → t.byteAt a = s.byteAt a)

/-- R129: ADVANCE never writes the key map, and with EXT_IO false it never writes a timer; with EXT_IO true only
SetDelay and SetSound write one. -/
def Obligations.AdvanceLeavesKeysAndTimers : Prop :=
  (∀ (n : Nat) (s t : State) (r : Reply), advance n s = .answered t r →
    t.key = s.key ∧ (s.params.extIo = false → t.dt = s.dt ∧ t.st = s.st)) ∧
  (∀ s t : State, step s = .next t →
    (t.dt ≠ s.dt → ∃ x, Fetches s (.setDelay x)) ∧ (t.st ≠ s.st → ∃ x, Fetches s (.setSound x)))

/-- R47, the spec's own decision D8: Run is Idle after CONSTRUCT, becomes Running at a successful LOAD, which sets
PC to 0x200, and nothing sets it back; a failing LOAD leaves it. -/
def Obligations.RunOnlyGoesFromIdleToRunning : Prop :=
  (∀ p, (State.construct p).run = .idle) ∧
  (∀ s t : State, step s = .next t → t.run = s.run) ∧
  (∀ (op : HostOp) (s t : State) (r : Reply), hostStep op s = .answered t r →
    (t.run = s.run ∨ ∃ bytes, op = .load bytes ∧ r = .ok ∧ t.run = .running ∧ t.pc = 0x200)) ∧
  (∀ (bytes : List Byte) (s t : State), hostStep (.load bytes) s = .answered t .ok →
    t.run = .running ∧ t.pc = 0x200)

/-- R34, R37, R41, R42, R47 (derived or decided by the spec): the invariant is kept by every tick, from every
state that meets it. -/
def Obligations.TickKeepsTheInvariant : Prop :=
  ∀ s t : State, Inv s → step s = .next t → Inv t

/-- R51, R250: the invariant holds after CONSTRUCT with parameters that meet R11's condition, and so at reset. -/
def Obligations.InvariantHoldsAfterConstruct : Prop :=
  (∀ p : Params, p.wf = true → Inv (State.construct p)) ∧ Inv State.reset

/-- R52, R127, R228, R235, R256: every host operation that is answered keeps the invariant, whatever its reply. -/
def Obligations.HostOperationsKeepTheInvariant : Prop :=
  ∀ (op : HostOp) (s t : State) (r : Reply), Inv s → hostStep op s = .answered t r → Inv t

/-- R37, which the spec derives from R36 and R63: in every state a host can bring a core into, PC is at most
0x1002 and every saved PC at most 0x1000, and a PC above 0x0FFE makes the next fetch fail. -/
def Obligations.PcNeverPassesFourKilobytesAndTwo : Prop :=
  ∀ (p : Params) (s : State), p.wf = true → Reachable p s →
    s.pc.toNat ≤ 0x1002 ∧ (∀ a ∈ s.stack, a.toNat ≤ 0x1000) ∧
    (s.run = .running → 0x0FFE < s.pc.toNat → step s = .fault .outOfBounds)

/-- R53: with EXT_IO false a program does not see the key map or the timers: two states that differ at most in
them take the same ticks, to states that again differ at most in them, and fail with the same errors. -/
def Obligations.KeysAndTimersAreInvisible : Prop :=
  ∀ s s' : State, s.params.extIo = false → SameButInputs s s' →
    (∀ t, step s = .next t → ∃ t', step s' = .next t' ∧ SameButInputs t t') ∧
    (∀ f, step s = .fault f ↔ step s' = .fault f)

/-- R40: only Call and Return see the call stack: every other instruction does the same whatever it holds, and
leaves it. -/
def Obligations.OnlyCallAndReturnSeeTheStack : Prop :=
  ∀ (i : Instr) (s : State) (k : List Word), i ≠ .ret → (∀ nnn, i ≠ .call nnn) →
    (∀ t, exec i s = .next t → t.stack = s.stack ∧ exec i (s.setStack k) = .next (t.setStack k)) ∧
    (∀ f, exec i s = .fault f → exec i (s.setStack k) = .fault f)

/-- 20_memory.md and the form of the model's memory (notes/assumptions/2.md): two memories in canonical form that
read the same at every address are the same data. -/
def Obligations.CanonicalMemoriesThatReadAlikeAreEqual : Prop :=
  ∀ (p : Params) (m m' : Memory), Memory.wf p m → Memory.wf p m' →
    (∀ a, Memory.read p m a = Memory.read p m' a) → m = m'

/-! ### Reset and the host's operations -/

/-- R51, R250, with the spec's own decisions D5, D6, D7, D14 and D24: every component after CONSTRUCT, for any
parameters: FONT_DATA from FONT_BASE on, 0x00 elsewhere. -/
def Obligations.ConstructGivesTheResetValues : Prop :=
  ∀ p : Params,
    (∀ x, (State.construct p).getV x = 0) ∧ (State.construct p).i = 0 ∧ (State.construct p).pc = 0 ∧
    (State.construct p).stack = [] ∧ (State.construct p).dt = 0 ∧ (State.construct p).st = 0 ∧
    (∀ x y, (State.construct p).fb.get x y = false) ∧ (∀ k, (State.construct p).keyDown k = false) ∧
    (State.construct p).run = .idle ∧
    (∀ j : Fin 80, (State.construct p).byteAt (p.fontBase.toNat + j.val) = p.fontData[j]) ∧
    (∀ a, a < p.fontBase.toNat ∨ p.fontBase.toNat + 80 ≤ a → (State.construct p).byteAt a = 0)

/-- R254, R255: a LOAD of at most 3584 bytes succeeds; a longer one answers CapacityExceeded and changes nothing.
-/
def Obligations.LoadCapacityIsAllOrNothing : Prop :=
  ∀ (bytes : List Byte) (s : State),
    (bytes.length ≤ 3584 → ∃ t, hostStep (.load bytes) s = .answered t .ok) ∧
    (3584 < bytes.length → hostStep (.load bytes) s = .answered s (.err .capacityExceeded))

/-- R256, R52, the spec's own decision D16: a LOAD that succeeds copies its bytes to 0x200 on, sets PC and Run,
and leaves every other byte and component. -/
def Obligations.LoadCopiesTheProgram : Prop :=
  ∀ (bytes : List Byte) (s t : State), hostStep (.load bytes) s = .answered t .ok →
    t.pc = 0x200 ∧ t.run = .running ∧
    (∀ j (h : j < bytes.length), t.byteAt (0x200 + j) = bytes[j]) ∧
    (∀ a, a < 0x200 ∨ 0x200 + bytes.length ≤ a → t.byteAt a = s.byteAt a) ∧
    OnlyWrites [.pc, .run, .mem] s t

/-- R69, R73, R252 (derived by the spec): the first tick after a LOAD fetches, at 0x200, the first two bytes
loaded, the first one the high byte. -/
def Obligations.FirstTickAfterLoadRunsTheFirstWord : Prop :=
  ∀ (hi lo : Byte) (rest : List Byte) (s t : State),
    hostStep (.load (hi :: lo :: rest)) s = .answered t .ok →
    t.pc = 0x200 ∧ wordAtPc t = hi ++ lo ∧
    ∀ i, decodeWord t.params.extIo (hi ++ lo) = .ok i → step t = exec i (t.setPc 0x202)

/-- R127: ADVANCE(n) runs up to n ticks and stops at the first error: none for n = 0 (R128, the spec's own decision
D17, notes/assumptions/24.md); for more, one tick first, whose error ends the call with the state before it; and
m + n ticks are m ticks and then, if none failed, n ticks. That a failing tick leaves the state before it is the
spec's own decision D4, and that its fault carries no state is the model's choice (notes/assumptions/9.md, DESIGN
CHOICE). -/
def Obligations.AdvanceRunsTicksUntilTheFirstError : Prop :=
  (∀ s : State, s.run = .running → advance 0 s = .answered s .ok) ∧
  (∀ (n : Nat) (s t : State), step s = .next t → advance (n + 1) s = advance n t) ∧
  (∀ (n : Nat) (s : State) (f : Fault), step s = .fault f → advance (n + 1) s = .answered s (.err f)) ∧
  (∀ (m n : Nat) (s t : State), advance m s = .answered t .ok → advance (m + n) s = advance n t) ∧
  (∀ (m n : Nat) (s t : State) (f : Fault), advance m s = .answered t (.err f) →
    advance (m + n) s = .answered t (.err f))

/-- R131, which the spec derives from R124 and R127: after ADVANCE answers an error the state is the state before
the failing tick; a later ADVANCE answers the same error and changes nothing, also after SUBMIT_KEY, TICK_TIMERS
or READ_FB in between. -/
def Obligations.FailedAdvanceFailsAgain : Prop :=
  ∀ (n : Nat) (s t : State) (f : Fault), advance n s = .answered t (.err f) →
    step t = .fault f ∧ (∀ k, advance (k + 1) t = .answered t (.err f)) ∧
    ∀ (op : HostOp) (u : State) (r : Reply), (∀ bytes, op ≠ .load bytes) → hostStep op t = .answered u r →
      ∀ k, advance (k + 1) u = .answered u (.err f)

/-- R228, R229, R225, with the spec's own decision D12 (1 per call): after k TICK_TIMERS each timer holds what it
held less k, or 0, and nothing else changes. -/
def Obligations.TimersCountDownAndSaturate : Prop :=
  ∀ (k : Nat) (s : State),
    hostStep .tickTimers s = .answered (tickTimers s) .nothing ∧
    ((tickTimers^[k] s).dt.toNat = s.dt.toNat - k ∧ (tickTimers^[k] s).st.toNat = s.st.toNat - k) ∧
    OnlyWrites [.dt, .st] s (tickTimers^[k] s)

/-- R235, R236, with the spec's own decision D14 (a key id above 15): SUBMIT_KEY sets the one key and nothing
else, the last submission of a key counts, and a key id above 15 is refused. -/
def Obligations.SubmitKeySetsOneKey : Prop :=
  (∀ (k : Fin 16) (down : Bool) (s : State), ∃ t, hostStep (.submitKey k.val down) s = .answered t .nothing ∧
    t.keyDown k = down ∧ (∀ j, j ≠ k → t.keyDown j = s.keyDown j) ∧ OnlyWrites [.key] s t ∧
    ∀ again, hostStep (.submitKey k.val again) t = hostStep (.submitKey k.val again) s) ∧
  (∀ (k : Nat) (down : Bool) (s : State), 15 < k → hostStep (.submitKey k down) s = .refused .keyIdAbove15)

/-- R233, R43, with the spec's own decision D23: READ_FB gives the 2048 pixels in row-major order, entry x + 64*y
the pixel (x, y), in either run state, and changes nothing. -/
def Obligations.ReadFbIsRowMajor : Prop :=
  ∀ s : State, ∃ pixels : Snapshot, hostStep .readFb s = .answered s (.snapshot pixels) ∧
    ∀ (x : Fin 64) (y : Fin 32), pixels[x.val + 64 * y.val]? = some (s.fb.get x y)

/-- The model's own definition for the host (notes/assumptions/3.md, 4.md; R121, R190): after placing the word of
any instruction of the table, the next tick runs exactly that instruction. -/
def Obligations.PlacedWordIsTheNextInstruction : Prop :=
  ∀ (s : State) (i : Instr), Fetches (s.withFetchWord 16 (encode i).toNat) i ∧
    decodeTableWord 16 (encode i).toNat = some i
end

