-- ==== Sys2Proof/Laws/Decode.lean ====
section
/-! SUPPORT. The fields of the formats (R91, R92), read back and put together: first every field and every format as a
number, then each field of each format, then each word from its fields. -/

namespace Sys2Proof

/-! ### Fields and formats as numbers -/

theorem toNat_fieldN1 (w : Word) : (fieldN1 w).toNat = w.toNat / 4096 := by
  have := w.isLt
  simp only [fieldN1, BitVec.extractLsb'_toNat, Nat.shiftRight_eq_div_pow]
  omega

theorem toNat_fieldX (w : Word) : (fieldX w).toNat = w.toNat / 256 % 16 := by
  simp only [fieldX, BitVec.extractLsb'_toNat, Nat.shiftRight_eq_div_pow]

theorem toNat_fieldY (w : Word) : (fieldY w).toNat = w.toNat / 16 % 16 := by
  simp only [fieldY, BitVec.extractLsb'_toNat, Nat.shiftRight_eq_div_pow]

theorem toNat_fieldN (w : Word) : (fieldN w).toNat = w.toNat % 16 := by
  simp [fieldN, BitVec.extractLsb'_toNat]

theorem toNat_fieldKK (w : Word) : (fieldKK w).toNat = w.toNat % 256 := by
  simp [fieldKK, BitVec.extractLsb'_toNat]

theorem toNat_fieldNNN (w : Word) : (fieldNNN w).toNat = w.toNat % 4096 := by
  simp [fieldNNN, BitVec.extractLsb'_toNat]

theorem toNat_highByte (w : Word) : (highByte w).toNat = w.toNat / 256 := by
  have := w.isLt
  simp only [highByte, BitVec.extractLsb'_toNat, Nat.shiftRight_eq_div_pow]
  omega

theorem toNat_lowByte (w : Word) : (lowByte w).toNat = w.toNat % 256 := by
  simp [lowByte, BitVec.extractLsb'_toNat]

/-- Putting one bit vector above another, as a number. -/
theorem toNat_append_eq {m n : Nat} (a : BitVec m) (b : BitVec n) :
    (a ++ b).toNat = a.toNat * 2 ^ n + b.toNat := by
  rw [BitVec.toNat_append, Nat.shiftLeft_eq, Nat.mul_comm, ← Nat.two_pow_add_eq_or_of_lt b.isLt]

/-- R66: the first byte is bits 15 to 8. -/
theorem toNat_wordOfBytes (hi lo : Byte) : (wordOfBytes hi lo).toNat = hi.toNat * 256 + lo.toNat :=
  toNat_append_eq hi lo

theorem toNat_formatNNN (op : Nibble) (nnn : Addr12) :
    (formatNNN op nnn).toNat = op.toNat * 4096 + nnn.toNat :=
  toNat_append_eq op nnn

theorem toNat_formatXKK (op : Nibble) (x : RegIdx) (kk : Byte) :
    (formatXKK op x kk).toNat = op.toNat * 4096 + x.toNat * 256 + kk.toNat := by
  have h1 : (formatXKK op x kk).toNat = op.toNat * 4096 + (x ++ kk).toNat := toNat_append_eq op (x ++ kk)
  have h2 : (x ++ kk).toNat = x.toNat * 256 + kk.toNat := toNat_append_eq x kk
  rw [h1, h2, Nat.add_assoc]

theorem toNat_formatXYN (op : Nibble) (x y : RegIdx) (n : Nibble) :
    (formatXYN op x y n).toNat = op.toNat * 4096 + x.toNat * 256 + y.toNat * 16 + n.toNat := by
  have h1 : (formatXYN op x y n).toNat = op.toNat * 4096 + (x ++ (y ++ n)).toNat :=
    toNat_append_eq op (x ++ (y ++ n))
  have h2 : (x ++ (y ++ n)).toNat = x.toNat * 256 + (y ++ n).toNat := toNat_append_eq x (y ++ n)
  have h3 : (y ++ n).toNat = y.toNat * 16 + n.toNat := toNat_append_eq y n
  rw [h1, h2, h3, Nat.add_assoc, Nat.add_assoc]

/-! ### A format's fields -/

@[simp] theorem fieldN1_formatNNN (op : Nibble) (nnn : Addr12) : fieldN1 (formatNNN op nnn) = op := by
  apply BitVec.eq_of_toNat_eq
  rw [toNat_fieldN1, toNat_formatNNN]
  omega

@[simp] theorem fieldNNN_formatNNN (op : Nibble) (nnn : Addr12) : fieldNNN (formatNNN op nnn) = nnn := by
  apply BitVec.eq_of_toNat_eq
  rw [toNat_fieldNNN, toNat_formatNNN]
  omega

@[simp] theorem fieldN1_formatXKK (op : Nibble) (x : RegIdx) (kk : Byte) :
    fieldN1 (formatXKK op x kk) = op := by
  apply BitVec.eq_of_toNat_eq
  rw [toNat_fieldN1, toNat_formatXKK]
  omega

@[simp] theorem fieldX_formatXKK (op : Nibble) (x : RegIdx) (kk : Byte) : fieldX (formatXKK op x kk) = x := by
  apply BitVec.eq_of_toNat_eq
  rw [toNat_fieldX, toNat_formatXKK]
  omega

@[simp] theorem fieldKK_formatXKK (op : Nibble) (x : RegIdx) (kk : Byte) :
    fieldKK (formatXKK op x kk) = kk := by
  apply BitVec.eq_of_toNat_eq
  rw [toNat_fieldKK, toNat_formatXKK]
  omega

@[simp] theorem fieldN1_formatXYN (op : Nibble) (x y : RegIdx) (n : Nibble) :
    fieldN1 (formatXYN op x y n) = op := by
  apply BitVec.eq_of_toNat_eq
  rw [toNat_fieldN1, toNat_formatXYN]
  omega

@[simp] theorem fieldX_formatXYN (op : Nibble) (x y : RegIdx) (n : Nibble) :
    fieldX (formatXYN op x y n) = x := by
  apply BitVec.eq_of_toNat_eq
  rw [toNat_fieldX, toNat_formatXYN]
  omega

@[simp] theorem fieldY_formatXYN (op : Nibble) (x y : RegIdx) (n : Nibble) :
    fieldY (formatXYN op x y n) = y := by
  apply BitVec.eq_of_toNat_eq
  rw [toNat_fieldY, toNat_formatXYN]
  omega

@[simp] theorem fieldN_formatXYN (op : Nibble) (x y : RegIdx) (n : Nibble) :
    fieldN (formatXYN op x y n) = n := by
  apply BitVec.eq_of_toNat_eq
  rw [toNat_fieldN, toNat_formatXYN]
  omega

/-! ### A word from its fields -/

/-- A word is its major opcode and its address. -/
theorem formatNNN_fields (w : Word) : formatNNN (fieldN1 w) (fieldNNN w) = w := by
  apply BitVec.eq_of_toNat_eq
  rw [toNat_formatNNN, toNat_fieldN1, toNat_fieldNNN]
  omega

/-- A word is its major opcode, its first register index and its immediate byte. -/
theorem formatXKK_fields (w : Word) : formatXKK (fieldN1 w) (fieldX w) (fieldKK w) = w := by
  apply BitVec.eq_of_toNat_eq
  rw [toNat_formatXKK, toNat_fieldN1, toNat_fieldX, toNat_fieldKK]
  omega

/-- A word is its four nibbles. -/
theorem formatXYN_fields (w : Word) : formatXYN (fieldN1 w) (fieldX w) (fieldY w) (fieldN w) = w := by
  apply BitVec.eq_of_toNat_eq
  rw [toNat_formatXYN, toNat_fieldN1, toNat_fieldX, toNat_fieldY, toNat_fieldN]
  omega

/-- A word is its high byte and its low byte (R66). -/
@[simp] theorem wordOfBytes_bytes (w : Word) : wordOfBytes (highByte w) (lowByte w) = w := by
  apply BitVec.eq_of_toNat_eq
  rw [toNat_wordOfBytes, toNat_highByte, toNat_lowByte]
  omega

/-! ### The mask of the EXT_IO patterns -/

/-- Mask 0xF0FF keeps the major opcode and the low byte (R190). -/
theorem mask_F0FF (w : Word) (op : Nibble) (kk : Byte) :
    w &&& 0xF0FF = formatXKK op 0 kk ↔ fieldN1 w = op ∧ fieldKK w = kk := by
  have key : w &&& 0xF0FF = formatXKK (fieldN1 w) 0 (fieldKK w) := by
    apply BitVec.eq_of_getLsbD_eq
    intro i hi
    have : formatXKK (fieldN1 w) 0 (fieldKK w) = (w >>> 12) <<< 12 ||| (w <<< 8) >>> 8 := by
      apply BitVec.eq_of_toNat_eq
      rw [toNat_formatXKK, toNat_fieldN1, toNat_fieldKK]
      have := w.isLt
      rw [BitVec.toNat_or]
      simp only [BitVec.toNat_shiftLeft, BitVec.toNat_ushiftRight, Nat.shiftLeft_eq,
        Nat.shiftRight_eq_div_pow]
      rw [show w.toNat / 2 ^ 12 * 2 ^ 12 % 2 ^ 16 = 2 ^ 12 * (w.toNat / 4096) by omega,
        show w.toNat * 2 ^ 8 % 2 ^ 16 / 2 ^ 8 = w.toNat % 256 by omega,
        ← Nat.two_pow_add_eq_or_of_lt (by omega), show (0 : RegIdx).toNat = 0 from rfl]
      omega
    rw [this]
    interval_cases i <;> simp
  rw [key]
  constructor
  · intro h
    exact ⟨by simpa using congrArg fieldN1 h, by simpa using congrArg fieldKK h⟩
  · rintro ⟨rfl, rfl⟩
    rfl

/-! ### The decoder's chain of tests -/

/-- A test of the chain that answers an error did not answer there. -/
theorem error_of_test {P : Prop} [Decidable P] {i : Instr} {r : Except DecodeError Instr} {e : DecodeError}
    (h : (if P then .ok i else r) = .error e) : ¬ P ∧ r = .error e := by
  by_cases hP : P
  · rw [if_pos hP] at h; cases h
  · rw [if_neg hP] at h; exact ⟨hP, h⟩

/-- A test of the chain that answers an instruction answers there or later. -/
theorem ok_of_test {P : Prop} [Decidable P] {i j : Instr} {r : Except DecodeError Instr}
    (h : (if P then .ok i else r) = .ok j) : (P ∧ j = i) ∨ (¬ P ∧ r = .ok j) := by
  by_cases hP : P
  · rw [if_pos hP] at h; exact .inl ⟨hP, (Except.ok.inj h).symm⟩
  · rw [if_neg hP] at h; exact .inr ⟨hP, h⟩

/-- What the decoder does past the twelve base patterns (R94, R102). -/
theorem ok_of_profile {extIo : Bool} {w : Word} {j : Instr}
    (h : (if extIo then
        match decodeExtIo w with
        | some i => .ok i
        | none => .error (.unknownOpcode w)
      else .error (.unknownOpcode w)) = (.ok j : Except DecodeError Instr)) :
    extIo = true ∧ decodeExtIo w = some j := by
  cases extIo
  · cases h
  · refine ⟨rfl, ?_⟩
    simp only [if_true] at h
    split at h
    · next i hi => rw [hi, Except.ok.inj h]
    · cases h

/-- Decoding rejects a word only as UnknownOpcode carrying it (R94, R99). -/
theorem decodeWord_error {extIo : Bool} {w : Word} {e : DecodeError} (h : decodeWord extIo w = .error e) :
    e = .unknownOpcode w := by
  unfold decodeWord at h
  iterate 12 replace h := (error_of_test h).2
  cases extIo
  · exact (Except.error.inj h).symm
  · simp only [if_true] at h
    split at h
    · cases h
    · exact (Except.error.inj h).symm

/-- The base patterns of R94, as what the word satisfies. -/
theorem decodeWord_ok {extIo : Bool} {w : Word} {i : Instr} (h : decodeWord extIo w = .ok i) :
    (w = 0x00E0 ∧ i = .clearScreen) ∨ (w = 0x00EE ∧ i = .ret) ∨
    (fieldN1 w = 0x1 ∧ i = .jump (fieldNNN w)) ∨ (fieldN1 w = 0x2 ∧ i = .call (fieldNNN w)) ∨
    (fieldN1 w = 0x3 ∧ i = .skipEqVal (fieldX w) (fieldKK w)) ∨
    (fieldN1 w = 0x4 ∧ i = .skipNeVal (fieldX w) (fieldKK w)) ∨
    ((fieldN1 w = 0x5 ∧ fieldN w = 0) ∧ i = .skipEqReg (fieldX w) (fieldY w)) ∨
    ((fieldN1 w = 0x9 ∧ fieldN w = 0) ∧ i = .skipNeReg (fieldX w) (fieldY w)) ∨
    (fieldN1 w = 0x6 ∧ i = .setRegister (fieldX w) (fieldKK w)) ∨
    (fieldN1 w = 0x7 ∧ i = .addRegister (fieldX w) (fieldKK w)) ∨
    (fieldN1 w = 0xA ∧ i = .setIndex (fieldNNN w)) ∨
    (fieldN1 w = 0xD ∧ i = .draw (fieldX w) (fieldY w) (fieldN w)) ∨
    (extIo = true ∧ decodeExtIo w = some i) := by
  unfold decodeWord at h
  iterate 12 (refine (ok_of_test h).imp id fun ⟨_, h⟩ => ?_)
  exact ok_of_profile h

/-- R94: the tests left for a word whose major opcode `op` is known and not 0. -/
theorem decodeWord_of_major {extIo : Bool} {w : Word} {op : Nibble} (h : fieldN1 w = op) (ho : op ≠ 0) :
    decodeWord extIo w =
      if op = 0x1 then .ok (.jump (fieldNNN w))
      else if op = 0x2 then .ok (.call (fieldNNN w))
      else if op = 0x3 then .ok (.skipEqVal (fieldX w) (fieldKK w))
      else if op = 0x4 then .ok (.skipNeVal (fieldX w) (fieldKK w))
      else if op = 0x5 ∧ fieldN w = 0 then .ok (.skipEqReg (fieldX w) (fieldY w))
      else if op = 0x9 ∧ fieldN w = 0 then .ok (.skipNeReg (fieldX w) (fieldY w))
      else if op = 0x6 then .ok (.setRegister (fieldX w) (fieldKK w))
      else if op = 0x7 then .ok (.addRegister (fieldX w) (fieldKK w))
      else if op = 0xA then .ok (.setIndex (fieldNNN w))
      else if op = 0xD then .ok (.draw (fieldX w) (fieldY w) (fieldN w))
      else if extIo then
        match decodeExtIo w with
        | some i => .ok i
        | none => .error (.unknownOpcode w)
      else .error (.unknownOpcode w) := by
  unfold decodeWord
  subst h
  have h1 : w ≠ 0x00E0 := fun e => ho (by rw [e]; rfl)
  have h2 : w ≠ 0x00EE := fun e => ho (by rw [e]; rfl)
  exact (if_neg h1).trans (if_neg h2)

/-- R190: the seven patterns as the major opcode and the low byte they ask for. -/
theorem decodeExtIo_eq (w : Word) :
    decodeExtIo w =
      if fieldN1 w = 0xE ∧ fieldKK w = 0x9E then some (.skipKeyPressed (fieldX w))
      else if fieldN1 w = 0xE ∧ fieldKK w = 0xA1 then some (.skipKeyNotPressed (fieldX w))
      else if fieldN1 w = 0xF ∧ fieldKK w = 0x07 then some (.getDelay (fieldX w))
      else if fieldN1 w = 0xF ∧ fieldKK w = 0x0A then some (.waitKey (fieldX w))
      else if fieldN1 w = 0xF ∧ fieldKK w = 0x15 then some (.setDelay (fieldX w))
      else if fieldN1 w = 0xF ∧ fieldKK w = 0x18 then some (.setSound (fieldX w))
      else if fieldN1 w = 0xF ∧ fieldKK w = 0x29 then some (.setIndexFont (fieldX w))
      else none := by
  have e (c : Word) (op : Nibble) (kk : Byte) (h : c = formatXKK op 0 kk) :
      w &&& 0xF0FF = c ↔ fieldN1 w = op ∧ fieldKK w = kk := h ▸ mask_F0FF w op kk
  unfold decodeExtIo
  simp only [e 0xE09E 0xE 0x9E rfl, e 0xE0A1 0xE 0xA1 rfl, e 0xF007 0xF 0x07 rfl, e 0xF00A 0xF 0x0A rfl,
    e 0xF015 0xF 0x15 rfl, e 0xF018 0xF 0x18 rfl, e 0xF029 0xF 0x29 rfl]

end Sys2Proof
end

