-- ==== Sys2Proof/Laws/State.lean ====
section
/-! SUPPORT. What each update of the state does to each field, to a register, to a key and to a byte of memory. Every
lemma here unfolds its update once, so that no later proof has to. -/

namespace Sys2Proof.Machine

/-! ### setV -/

@[simp] theorem State.setV_i (s : State) (x : RegIdx) (b : Byte) : (s.setV x b).i = s.i := rfl
@[simp] theorem State.setV_pc (s : State) (x : RegIdx) (b : Byte) : (s.setV x b).pc = s.pc := rfl
@[simp] theorem State.setV_stack (s : State) (x : RegIdx) (b : Byte) : (s.setV x b).stack = s.stack := rfl
@[simp] theorem State.setV_dt (s : State) (x : RegIdx) (b : Byte) : (s.setV x b).dt = s.dt := rfl
@[simp] theorem State.setV_st (s : State) (x : RegIdx) (b : Byte) : (s.setV x b).st = s.st := rfl
@[simp] theorem State.setV_fb (s : State) (x : RegIdx) (b : Byte) : (s.setV x b).fb = s.fb := rfl
@[simp] theorem State.setV_key (s : State) (x : RegIdx) (b : Byte) : (s.setV x b).key = s.key := rfl
@[simp] theorem State.setV_mem (s : State) (x : RegIdx) (b : Byte) : (s.setV x b).mem = s.mem := rfl
@[simp] theorem State.setV_run (s : State) (x : RegIdx) (b : Byte) : (s.setV x b).run = s.run := rfl
@[simp] theorem State.setV_params (s : State) (x : RegIdx) (b : Byte) : (s.setV x b).params = s.params := rfl
@[simp] theorem State.keyDown_setV (s : State) (x : RegIdx) (b : Byte) (j : Fin numKeys) : (s.setV x b).keyDown j = s.keyDown j := rfl
@[simp] theorem State.byteAt_setV (s : State) (x : RegIdx) (b : Byte) (a' : Nat) : (s.setV x b).byteAt a' = s.byteAt a' := rfl

/-! ### setI -/

@[simp] theorem State.setI_v (s : State) (a : Word) : (s.setI a).v = s.v := rfl
@[simp] theorem State.setI_i (s : State) (a : Word) : (s.setI a).i = a := rfl
@[simp] theorem State.setI_pc (s : State) (a : Word) : (s.setI a).pc = s.pc := rfl
@[simp] theorem State.setI_stack (s : State) (a : Word) : (s.setI a).stack = s.stack := rfl
@[simp] theorem State.setI_dt (s : State) (a : Word) : (s.setI a).dt = s.dt := rfl
@[simp] theorem State.setI_st (s : State) (a : Word) : (s.setI a).st = s.st := rfl
@[simp] theorem State.setI_fb (s : State) (a : Word) : (s.setI a).fb = s.fb := rfl
@[simp] theorem State.setI_key (s : State) (a : Word) : (s.setI a).key = s.key := rfl
@[simp] theorem State.setI_mem (s : State) (a : Word) : (s.setI a).mem = s.mem := rfl
@[simp] theorem State.setI_run (s : State) (a : Word) : (s.setI a).run = s.run := rfl
@[simp] theorem State.setI_params (s : State) (a : Word) : (s.setI a).params = s.params := rfl
@[simp] theorem State.getV_setI (s : State) (a : Word) (y : RegIdx) : (s.setI a).getV y = s.getV y := rfl
@[simp] theorem State.keyDown_setI (s : State) (a : Word) (j : Fin numKeys) : (s.setI a).keyDown j = s.keyDown j := rfl
@[simp] theorem State.byteAt_setI (s : State) (a : Word) (a' : Nat) : (s.setI a).byteAt a' = s.byteAt a' := rfl

/-! ### setPc -/

@[simp] theorem State.setPc_v (s : State) (a : Word) : (s.setPc a).v = s.v := rfl
@[simp] theorem State.setPc_i (s : State) (a : Word) : (s.setPc a).i = s.i := rfl
@[simp] theorem State.setPc_pc (s : State) (a : Word) : (s.setPc a).pc = a := rfl
@[simp] theorem State.setPc_stack (s : State) (a : Word) : (s.setPc a).stack = s.stack := rfl
@[simp] theorem State.setPc_dt (s : State) (a : Word) : (s.setPc a).dt = s.dt := rfl
@[simp] theorem State.setPc_st (s : State) (a : Word) : (s.setPc a).st = s.st := rfl
@[simp] theorem State.setPc_fb (s : State) (a : Word) : (s.setPc a).fb = s.fb := rfl
@[simp] theorem State.setPc_key (s : State) (a : Word) : (s.setPc a).key = s.key := rfl
@[simp] theorem State.setPc_mem (s : State) (a : Word) : (s.setPc a).mem = s.mem := rfl
@[simp] theorem State.setPc_run (s : State) (a : Word) : (s.setPc a).run = s.run := rfl
@[simp] theorem State.setPc_params (s : State) (a : Word) : (s.setPc a).params = s.params := rfl
@[simp] theorem State.getV_setPc (s : State) (a : Word) (y : RegIdx) : (s.setPc a).getV y = s.getV y := rfl
@[simp] theorem State.keyDown_setPc (s : State) (a : Word) (j : Fin numKeys) : (s.setPc a).keyDown j = s.keyDown j := rfl
@[simp] theorem State.byteAt_setPc (s : State) (a : Word) (a' : Nat) : (s.setPc a).byteAt a' = s.byteAt a' := rfl

/-! ### setStack -/

@[simp] theorem State.setStack_v (s : State) (k : List Word) : (s.setStack k).v = s.v := rfl
@[simp] theorem State.setStack_i (s : State) (k : List Word) : (s.setStack k).i = s.i := rfl
@[simp] theorem State.setStack_pc (s : State) (k : List Word) : (s.setStack k).pc = s.pc := rfl
@[simp] theorem State.setStack_stack (s : State) (k : List Word) : (s.setStack k).stack = k := rfl
@[simp] theorem State.setStack_dt (s : State) (k : List Word) : (s.setStack k).dt = s.dt := rfl
@[simp] theorem State.setStack_st (s : State) (k : List Word) : (s.setStack k).st = s.st := rfl
@[simp] theorem State.setStack_fb (s : State) (k : List Word) : (s.setStack k).fb = s.fb := rfl
@[simp] theorem State.setStack_key (s : State) (k : List Word) : (s.setStack k).key = s.key := rfl
@[simp] theorem State.setStack_mem (s : State) (k : List Word) : (s.setStack k).mem = s.mem := rfl
@[simp] theorem State.setStack_run (s : State) (k : List Word) : (s.setStack k).run = s.run := rfl
@[simp] theorem State.setStack_params (s : State) (k : List Word) : (s.setStack k).params = s.params := rfl
@[simp] theorem State.getV_setStack (s : State) (k : List Word) (y : RegIdx) : (s.setStack k).getV y = s.getV y := rfl
@[simp] theorem State.keyDown_setStack (s : State) (k : List Word) (j : Fin numKeys) : (s.setStack k).keyDown j = s.keyDown j := rfl
@[simp] theorem State.byteAt_setStack (s : State) (k : List Word) (a' : Nat) : (s.setStack k).byteAt a' = s.byteAt a' := rfl

/-! ### setDt -/

@[simp] theorem State.setDt_v (s : State) (b : Byte) : (s.setDt b).v = s.v := rfl
@[simp] theorem State.setDt_i (s : State) (b : Byte) : (s.setDt b).i = s.i := rfl
@[simp] theorem State.setDt_pc (s : State) (b : Byte) : (s.setDt b).pc = s.pc := rfl
@[simp] theorem State.setDt_stack (s : State) (b : Byte) : (s.setDt b).stack = s.stack := rfl
@[simp] theorem State.setDt_dt (s : State) (b : Byte) : (s.setDt b).dt = b := rfl
@[simp] theorem State.setDt_st (s : State) (b : Byte) : (s.setDt b).st = s.st := rfl
@[simp] theorem State.setDt_fb (s : State) (b : Byte) : (s.setDt b).fb = s.fb := rfl
@[simp] theorem State.setDt_key (s : State) (b : Byte) : (s.setDt b).key = s.key := rfl
@[simp] theorem State.setDt_mem (s : State) (b : Byte) : (s.setDt b).mem = s.mem := rfl
@[simp] theorem State.setDt_run (s : State) (b : Byte) : (s.setDt b).run = s.run := rfl
@[simp] theorem State.setDt_params (s : State) (b : Byte) : (s.setDt b).params = s.params := rfl
@[simp] theorem State.getV_setDt (s : State) (b : Byte) (y : RegIdx) : (s.setDt b).getV y = s.getV y := rfl
@[simp] theorem State.keyDown_setDt (s : State) (b : Byte) (j : Fin numKeys) : (s.setDt b).keyDown j = s.keyDown j := rfl
@[simp] theorem State.byteAt_setDt (s : State) (b : Byte) (a' : Nat) : (s.setDt b).byteAt a' = s.byteAt a' := rfl

/-! ### setSt -/

@[simp] theorem State.setSt_v (s : State) (b : Byte) : (s.setSt b).v = s.v := rfl
@[simp] theorem State.setSt_i (s : State) (b : Byte) : (s.setSt b).i = s.i := rfl
@[simp] theorem State.setSt_pc (s : State) (b : Byte) : (s.setSt b).pc = s.pc := rfl
@[simp] theorem State.setSt_stack (s : State) (b : Byte) : (s.setSt b).stack = s.stack := rfl
@[simp] theorem State.setSt_dt (s : State) (b : Byte) : (s.setSt b).dt = s.dt := rfl
@[simp] theorem State.setSt_st (s : State) (b : Byte) : (s.setSt b).st = b := rfl
@[simp] theorem State.setSt_fb (s : State) (b : Byte) : (s.setSt b).fb = s.fb := rfl
@[simp] theorem State.setSt_key (s : State) (b : Byte) : (s.setSt b).key = s.key := rfl
@[simp] theorem State.setSt_mem (s : State) (b : Byte) : (s.setSt b).mem = s.mem := rfl
@[simp] theorem State.setSt_run (s : State) (b : Byte) : (s.setSt b).run = s.run := rfl
@[simp] theorem State.setSt_params (s : State) (b : Byte) : (s.setSt b).params = s.params := rfl
@[simp] theorem State.getV_setSt (s : State) (b : Byte) (y : RegIdx) : (s.setSt b).getV y = s.getV y := rfl
@[simp] theorem State.keyDown_setSt (s : State) (b : Byte) (j : Fin numKeys) : (s.setSt b).keyDown j = s.keyDown j := rfl
@[simp] theorem State.byteAt_setSt (s : State) (b : Byte) (a' : Nat) : (s.setSt b).byteAt a' = s.byteAt a' := rfl

/-! ### setFb -/

@[simp] theorem State.setFb_v (s : State) (f : Framebuffer) : (s.setFb f).v = s.v := rfl
@[simp] theorem State.setFb_i (s : State) (f : Framebuffer) : (s.setFb f).i = s.i := rfl
@[simp] theorem State.setFb_pc (s : State) (f : Framebuffer) : (s.setFb f).pc = s.pc := rfl
@[simp] theorem State.setFb_stack (s : State) (f : Framebuffer) : (s.setFb f).stack = s.stack := rfl
@[simp] theorem State.setFb_dt (s : State) (f : Framebuffer) : (s.setFb f).dt = s.dt := rfl
@[simp] theorem State.setFb_st (s : State) (f : Framebuffer) : (s.setFb f).st = s.st := rfl
@[simp] theorem State.setFb_fb (s : State) (f : Framebuffer) : (s.setFb f).fb = f := rfl
@[simp] theorem State.setFb_key (s : State) (f : Framebuffer) : (s.setFb f).key = s.key := rfl
@[simp] theorem State.setFb_mem (s : State) (f : Framebuffer) : (s.setFb f).mem = s.mem := rfl
@[simp] theorem State.setFb_run (s : State) (f : Framebuffer) : (s.setFb f).run = s.run := rfl
@[simp] theorem State.setFb_params (s : State) (f : Framebuffer) : (s.setFb f).params = s.params := rfl
@[simp] theorem State.getV_setFb (s : State) (f : Framebuffer) (y : RegIdx) : (s.setFb f).getV y = s.getV y := rfl
@[simp] theorem State.keyDown_setFb (s : State) (f : Framebuffer) (j : Fin numKeys) : (s.setFb f).keyDown j = s.keyDown j := rfl
@[simp] theorem State.byteAt_setFb (s : State) (f : Framebuffer) (a' : Nat) : (s.setFb f).byteAt a' = s.byteAt a' := rfl

/-! ### setRun -/

@[simp] theorem State.setRun_v (s : State) (r : Run) : (s.setRun r).v = s.v := rfl
@[simp] theorem State.setRun_i (s : State) (r : Run) : (s.setRun r).i = s.i := rfl
@[simp] theorem State.setRun_pc (s : State) (r : Run) : (s.setRun r).pc = s.pc := rfl
@[simp] theorem State.setRun_stack (s : State) (r : Run) : (s.setRun r).stack = s.stack := rfl
@[simp] theorem State.setRun_dt (s : State) (r : Run) : (s.setRun r).dt = s.dt := rfl
@[simp] theorem State.setRun_st (s : State) (r : Run) : (s.setRun r).st = s.st := rfl
@[simp] theorem State.setRun_fb (s : State) (r : Run) : (s.setRun r).fb = s.fb := rfl
@[simp] theorem State.setRun_key (s : State) (r : Run) : (s.setRun r).key = s.key := rfl
@[simp] theorem State.setRun_mem (s : State) (r : Run) : (s.setRun r).mem = s.mem := rfl
@[simp] theorem State.setRun_run (s : State) (r : Run) : (s.setRun r).run = r := rfl
@[simp] theorem State.setRun_params (s : State) (r : Run) : (s.setRun r).params = s.params := rfl
@[simp] theorem State.getV_setRun (s : State) (r : Run) (y : RegIdx) : (s.setRun r).getV y = s.getV y := rfl
@[simp] theorem State.keyDown_setRun (s : State) (r : Run) (j : Fin numKeys) : (s.setRun r).keyDown j = s.keyDown j := rfl
@[simp] theorem State.byteAt_setRun (s : State) (r : Run) (a' : Nat) : (s.setRun r).byteAt a' = s.byteAt a' := rfl

/-! ### setKey -/

@[simp] theorem State.setKey_v (s : State) (k : Fin numKeys) (down : Bool) : (s.setKey k down).v = s.v := rfl
@[simp] theorem State.setKey_i (s : State) (k : Fin numKeys) (down : Bool) : (s.setKey k down).i = s.i := rfl
@[simp] theorem State.setKey_pc (s : State) (k : Fin numKeys) (down : Bool) : (s.setKey k down).pc = s.pc := rfl
@[simp] theorem State.setKey_stack (s : State) (k : Fin numKeys) (down : Bool) : (s.setKey k down).stack = s.stack := rfl
@[simp] theorem State.setKey_dt (s : State) (k : Fin numKeys) (down : Bool) : (s.setKey k down).dt = s.dt := rfl
@[simp] theorem State.setKey_st (s : State) (k : Fin numKeys) (down : Bool) : (s.setKey k down).st = s.st := rfl
@[simp] theorem State.setKey_fb (s : State) (k : Fin numKeys) (down : Bool) : (s.setKey k down).fb = s.fb := rfl
@[simp] theorem State.setKey_mem (s : State) (k : Fin numKeys) (down : Bool) : (s.setKey k down).mem = s.mem := rfl
@[simp] theorem State.setKey_run (s : State) (k : Fin numKeys) (down : Bool) : (s.setKey k down).run = s.run := rfl
@[simp] theorem State.setKey_params (s : State) (k : Fin numKeys) (down : Bool) : (s.setKey k down).params = s.params := rfl
@[simp] theorem State.getV_setKey (s : State) (k : Fin numKeys) (down : Bool) (y : RegIdx) : (s.setKey k down).getV y = s.getV y := rfl
@[simp] theorem State.byteAt_setKey (s : State) (k : Fin numKeys) (down : Bool) (a' : Nat) : (s.setKey k down).byteAt a' = s.byteAt a' := rfl

/-! ### Updates made of others -/

@[simp] theorem State.advancePc_eq (s : State) : s.advancePc = s.setPc (s.pc + 2) := rfl

@[simp] theorem State.push_eq (s : State) (a : Word) : s.push a = s.setStack (a :: s.stack) := rfl

/-! ### Registers and keys -/

/-- R31: a register that was written reads as what was written. -/
@[simp] theorem State.getV_setV_same (s : State) (x : RegIdx) (b : Byte) : (s.setV x b).getV x = b := by
  simp [State.getV, State.setV]

/-- R31: no two registers alias. -/
theorem State.getV_setV_of_ne (s : State) {x y : RegIdx} (b : Byte) (h : y ≠ x) :
    (s.setV x b).getV y = s.getV y := by
  have h' : x.toNat ≠ y.toNat := fun e => h (BitVec.eq_of_toNat_eq e.symm)
  simp [State.getV, State.setV, h']

/-- R235: a key that was submitted reads as it was submitted. -/
@[simp] theorem State.keyDown_setKey_same (s : State) (k : Fin numKeys) (down : Bool) :
    (s.setKey k down).keyDown k = down := by
  simp [State.keyDown, State.setKey]

/-- R235: no other key changes. -/
theorem State.keyDown_setKey_of_ne (s : State) {k j : Fin numKeys} (down : Bool) (h : j ≠ k) :
    (s.setKey k down).keyDown j = s.keyDown j := by
  have h' : k.val ≠ j.val := fun e => h (Fin.ext e.symm)
  simp [State.keyDown, State.setKey, h']

end Sys2Proof.Machine
end

