-- ==== Sys2Proof/Laws/Framebuffer.lean ====
section
/-! SUPPORT. The framebuffer: a pixel that was written reads as written, every other is left, and two framebuffers that
read alike are equal (R43, R170). -/

namespace Sys2Proof.Machine

@[simp] theorem Framebuffer.get_set_same (f : Framebuffer) (x : Fin dispW) (y : Fin dispH) (b : Bool) :
    (f.set x y b).get x y = b := by
  simp [Framebuffer.get, Framebuffer.set]

theorem Framebuffer.get_set_of_ne (f : Framebuffer) {x x' : Fin dispW} {y y' : Fin dispH} (b : Bool)
    (h : (x', y') ≠ (x, y)) : (f.set x y b).get x' y' = f.get x' y' := by
  by_cases hy : y' = y
  · subst hy
    have hx : x.val ≠ x'.val := fun e => h (by rw [Fin.ext e])
    simp [Framebuffer.get, Framebuffer.set, hx]
  · have hy' : y.val ≠ y'.val := fun e => hy (Fin.ext e.symm)
    simp [Framebuffer.get, Framebuffer.set, hy']

@[simp] theorem Framebuffer.get_clear (x : Fin dispW) (y : Fin dispH) : Framebuffer.clear.get x y = false := by
  simp [Framebuffer.get, Framebuffer.clear]

/-- A framebuffer is its pixels. -/
theorem Framebuffer.ext_get {f g : Framebuffer} (h : ∀ x y, f.get x y = g.get x y) : f = g := by
  refine Vector.ext fun j hj => Vector.ext fun i hi => ?_
  exact h ⟨i, hi⟩ ⟨j, hj⟩

/-- R170, R176: a plotted pixel is toggled by `flip`, every other is left. -/
theorem Canvas.get_plot (c : Canvas) (px x : Fin dispW) (py y : Fin dispH) (flip : Bool) :
    (c.plot px py flip).fb.get x y = (c.fb.get x y ^^ (decide (x = px ∧ y = py) && flip)) := by
  by_cases h : x = px ∧ y = py
  · obtain ⟨rfl, rfl⟩ := h
    simp [Canvas.plot, displayDraw]
  · have : (x, y) ≠ (px, py) := fun e => h (by simpa using e)
    simp [Canvas.plot, displayDraw, Framebuffer.get_set_of_ne _ _ this, h]

/-- R170, R176: a plot collides when it toggles a pixel that was on. -/
@[simp] theorem Canvas.collided_plot (c : Canvas) (px : Fin dispW) (py : Fin dispH) (flip : Bool) :
    (c.plot px py flip).collided = (c.collided || (c.fb.get px py && flip)) := rfl

end Sys2Proof.Machine
end

