-- ==== Sys2Proof/Laws/Draw.lean ====
section
/-! SUPPORT. What the loops of Draw compute, in closed form (R174 to R179): which pixels a row toggles, which pixels the
rows toggle, when a collision is seen, and when a row's byte lies past memory. -/

namespace Sys2Proof.Machine

/-- R173, R177: the columns `c0` to `c0 + k - 1` of a sprite row toggle the pixels of their row that are on the
display and whose bit is set. -/
theorem drawColumns_get (sx : Nat) (py : Fin dispH) (b : Byte) (c0 k : Nat) (c : Canvas) (x : Fin dispW)
    (y : Fin dispH) :
    (drawColumns sx py b (List.range' c0 k) c).fb.get x y =
      (c.fb.get x y ^^
        (decide (y = py ∧ sx + c0 ≤ x.val ∧ x.val < sx + c0 + k) && spriteBit b (x.val - sx))) := by
  induction k generalizing c0 c with
  | zero =>
    have h : ¬ (y = py ∧ sx + c0 ≤ x.val ∧ x.val < sx + c0 + 0) := by omega
    simp only [List.range'_zero, drawColumns, decide_eq_false h, Bool.false_and, Bool.xor_false]
  | succ k ih =>
    rw [List.range'_succ, drawColumns]
    split
    · next h =>
      rw [ih, Canvas.get_plot, Bool.xor_assoc]
      congr 1
      by_cases hx : x.val = sx + c0
      · have h1 : ¬ (y = py ∧ sx + (c0 + 1) ≤ x.val ∧ x.val < sx + (c0 + 1) + k) := by omega
        have h2 : x = (⟨sx + c0, h⟩ : Fin dispW) := Fin.ext hx
        subst h2
        have h3 : (sx + c0 ≤ sx + c0 ∧ sx + c0 < sx + c0 + (k + 1)) ↔ True := by
          constructor <;> intro <;> first | trivial | omega
        simp only [h1, h3, decide_false, Bool.false_and, Bool.xor_false, true_and, and_true]
        rw [Nat.add_sub_cancel_left]
      · have h2 : ¬ (x = (⟨sx + c0, h⟩ : Fin dispW) ∧ y = py) := fun e => hx (congrArg Fin.val e.1)
        have h1 : (y = py ∧ sx + (c0 + 1) ≤ x.val ∧ x.val < sx + (c0 + 1) + k) ↔
            (y = py ∧ sx + c0 ≤ x.val ∧ x.val < sx + c0 + (k + 1)) := by omega
        simp [h1, h2]
    · next h =>
      have hx := x.isLt
      have h1 : ¬ (y = py ∧ sx + c0 ≤ x.val ∧ x.val < sx + c0 + (k + 1)) := by omega
      simp [h1]

/-- R176, R177: a sprite row collides when one of the pixels it toggles was on. -/
theorem drawColumns_collided (sx : Nat) (py : Fin dispH) (b : Byte) (c0 k : Nat) (c : Canvas) :
    (drawColumns sx py b (List.range' c0 k) c).collided = true ↔
      c.collided = true ∨ ∃ x : Fin dispW, c.fb.get x py = true ∧
        (sx + c0 ≤ x.val ∧ x.val < sx + c0 + k) ∧ spriteBit b (x.val - sx) = true := by
  induction k generalizing c0 c with
  | zero =>
    simp only [List.range'_zero, drawColumns, Nat.add_zero, iff_self_or]
    rintro ⟨x, -, hx, -⟩
    omega
  | succ k ih =>
    rw [List.range'_succ, drawColumns]
    split
    · next h =>
      rw [ih, Canvas.collided_plot, Bool.or_eq_true, Bool.and_eq_true, or_assoc]
      refine or_congr_right ⟨?_, ?_⟩
      · rintro (⟨hon, hbit⟩ | ⟨x, hon, hx, hbit⟩)
        · exact ⟨⟨sx + c0, h⟩, hon, by simp, by simpa using hbit⟩
        · refine ⟨x, ?_, by omega, hbit⟩
          have hne : ¬ (x = (⟨sx + c0, h⟩ : Fin dispW) ∧ py = py) := fun e => by
            have := congrArg Fin.val e.1
            simp only at this
            omega
          rwa [Canvas.get_plot, decide_eq_false hne, Bool.false_and, Bool.xor_false] at hon
      · rintro ⟨x, hon, hx, hbit⟩
        by_cases hx0 : x.val = sx + c0
        · have h2 : x = (⟨sx + c0, h⟩ : Fin dispW) := Fin.ext hx0
          subst h2
          exact .inl ⟨hon, by simpa using hbit⟩
        · refine .inr ⟨x, ?_, by omega, hbit⟩
          have hne : ¬ (x = (⟨sx + c0, h⟩ : Fin dispW) ∧ py = py) := fun e => hx0 (congrArg Fin.val e.1)
          rwa [Canvas.get_plot, decide_eq_false hne, Bool.false_and, Bool.xor_false]
    · next h =>
      simp only [iff_self_or]
      rintro ⟨x, -, hx, -⟩
      have := x.isLt
      omega

/-- Rows `r0` to `r0 + k - 1` of the sprite at (sx, sy) have a set bit on the pixel (x, y). -/
def rowsCover (s : State) (sx sy r0 k : Nat) (x : Fin dispW) (y : Fin dispH) : Bool :=
  decide (sx ≤ x.val ∧ x.val < sx + 8 ∧ sy + r0 ≤ y.val ∧ y.val < sy + r0 + k) &&
    (s.byteAt (spriteAddr s (y.val - sy))).getLsbD (7 - (x.val - sx))

theorem rowsCover_zero (s : State) (sx sy n : Nat) (x : Fin dispW) (y : Fin dispH) :
    rowsCover s sx sy 0 n x y = spriteCovers s sx sy n x y := rfl

/-- The rows `r0` to `r0 + k - 1` that a draw starting at row `r0` reads all lie in memory. -/
def rowsReadable (s : State) (sy r0 k : Nat) : Prop :=
  ∀ row, r0 ≤ row → row < r0 + k → (row = r0 ∨ sy + row ≤ dispH) → spriteAddr s row < memSize

theorem rowsReadable_zero (s : State) (sy n : Nat) : rowsReadable s sy 0 n ↔ spriteReadable s sy n := by
  simp [rowsReadable, spriteReadable, rowIsRead]

/-- A row that is read and on the display, then the rest. -/
theorem rowsReadable_succ {s : State} {sy r0 k : Nat} (h : rowsReadable s sy r0 (k + 1))
    (hr : sy + r0 < dispH) : rowsReadable s sy (r0 + 1) k :=
  fun row h1 h2 _ => h row (by omega) (by omega) (.inr (by omega))

/-- R174 to R179: when every row that is read lies in memory the loop completes, toggling exactly the pixels the
rows cover, and a collision is seen exactly when one of them was on. -/
theorem drawRows_ok {s : State} {sx sy r0 k : Nat} (c : Canvas) (h : rowsReadable s sy r0 k) :
    ∃ d, drawRows s sx sy (List.range' r0 k) c = .ok d ∧
      (∀ x y, d.fb.get x y = (c.fb.get x y ^^ rowsCover s sx sy r0 k x y)) ∧
      (d.collided = true ↔
        c.collided = true ∨ ∃ x y, c.fb.get x y = true ∧ rowsCover s sx sy r0 k x y = true) := by
  induction k generalizing r0 c with
  | zero =>
    have hz : ∀ x y, rowsCover s sx sy r0 0 x y = false := fun x y => by
      have : ¬ (sx ≤ x.val ∧ x.val < sx + 8 ∧ sy + r0 ≤ y.val ∧ y.val < sy + r0 + 0) := by omega
      simp only [rowsCover, decide_eq_false this, Bool.false_and]
    exact ⟨c, rfl, by simp [hz], by simp [hz]⟩
  | succ k ih =>
    have hread : memRead1 s (spriteAddr s r0) = .ok (s.byteAt (spriteAddr s r0)) := by
      have := h r0 (Nat.le_refl _) (by omega) (.inl rfl)
      simp only [memRead1]
      rw [if_neg (by omega)]
    rw [List.range'_succ, drawRows, hread]
    simp only
    split
    · next hr =>
      rw [List.range_eq_range']
      obtain ⟨d, hd, hget, hcol⟩ :=
        ih (drawColumns sx ⟨sy + r0, hr⟩ (s.byteAt (spriteAddr s r0)) (List.range' 0 8) c)
          (rowsReadable_succ h hr)
      have hrow : ∀ (x : Fin dispW) (y : Fin dispH), y.val = sy + r0 →
          rowsCover s sx sy (r0 + 1) k x y = false ∧
          rowsCover s sx sy r0 (k + 1) x y =
            (decide (y = (⟨sy + r0, hr⟩ : Fin dispH) ∧ sx + 0 ≤ x.val ∧ x.val < sx + 0 + 8) &&
              spriteBit (s.byteAt (spriteAddr s r0)) (x.val - sx)) := by
        intro x y hy
        have hy' : y = (⟨sy + r0, hr⟩ : Fin dispH) := Fin.ext hy
        have h1 : ¬ (sx ≤ x.val ∧ x.val < sx + 8 ∧ sy + (r0 + 1) ≤ y.val ∧ y.val < sy + (r0 + 1) + k) := by
          omega
        have h2 : (sx ≤ x.val ∧ x.val < sx + 8 ∧ sy + r0 ≤ y.val ∧ y.val < sy + r0 + (k + 1)) ↔
            (y = (⟨sy + r0, hr⟩ : Fin dispH) ∧ sx + 0 ≤ x.val ∧ x.val < sx + 0 + 8) := by
          constructor
          · rintro ⟨a, b, -, -⟩
            exact ⟨hy', by omega, by omega⟩
          · rintro ⟨-, a, b⟩
            omega
        refine ⟨by simp only [rowsCover, decide_eq_false h1, Bool.false_and], ?_⟩
        simp only [rowsCover, decide_eq_decide.mpr h2, spriteBit]
        rw [show y.val - sy = r0 by omega]
      have hother : ∀ (x : Fin dispW) (y : Fin dispH), y.val ≠ sy + r0 →
          rowsCover s sx sy r0 (k + 1) x y = rowsCover s sx sy (r0 + 1) k x y ∧
          (decide (y = (⟨sy + r0, hr⟩ : Fin dispH) ∧ sx + 0 ≤ x.val ∧ x.val < sx + 0 + 8) &&
              spriteBit (s.byteAt (spriteAddr s r0)) (x.val - sx)) = false := by
        intro x y hy
        have hy' : y ≠ (⟨sy + r0, hr⟩ : Fin dispH) := fun e => hy (congrArg Fin.val e)
        have h2 : (sx ≤ x.val ∧ x.val < sx + 8 ∧ sy + r0 ≤ y.val ∧ y.val < sy + r0 + (k + 1)) ↔
            (sx ≤ x.val ∧ x.val < sx + 8 ∧ sy + (r0 + 1) ≤ y.val ∧ y.val < sy + (r0 + 1) + k) := by omega
        exact ⟨by simp only [rowsCover, decide_eq_decide.mpr h2], by simp [hy']⟩
      refine ⟨d, hd, fun x y => ?_, ?_⟩
      · rw [hget, drawColumns_get]
        by_cases hy : y.val = sy + r0
        · rw [(hrow x y hy).1, (hrow x y hy).2, Bool.xor_false]
        · rw [(hother x y hy).1, (hother x y hy).2, Bool.xor_false]
      · rw [hcol, drawColumns_collided, or_assoc]
        refine or_congr_right ⟨?_, ?_⟩
        · rintro (⟨x, hon, hx, hbit⟩ | ⟨x, y, hon, hcov⟩)
          · refine ⟨x, ⟨sy + r0, hr⟩, hon, ?_⟩
            rw [(hrow x ⟨sy + r0, hr⟩ rfl).2]
            simp [hbit]
            omega
          · by_cases hy : y.val = sy + r0
            · rw [(hrow x y hy).1] at hcov
              cases hcov
            · rw [drawColumns_get, (hother x y hy).2, Bool.xor_false] at hon
              exact ⟨x, y, hon, by rw [(hother x y hy).1]; exact hcov⟩
        · rintro ⟨x, y, hon, hcov⟩
          by_cases hy : y.val = sy + r0
          · rw [(hrow x y hy).2, Bool.and_eq_true, decide_eq_true_eq] at hcov
            obtain ⟨⟨hy', hx⟩, hbit⟩ := hcov
            exact .inl ⟨x, by rw [← hy']; exact hon, hx, hbit⟩
          · rw [(hother x y hy).1] at hcov
            refine .inr ⟨x, y, ?_, hcov⟩
            rw [drawColumns_get, (hother x y hy).2, Bool.xor_false]
            exact hon
    · next hr =>
      have hz : ∀ (x : Fin dispW) (y : Fin dispH), rowsCover s sx sy r0 (k + 1) x y = false := fun x y => by
        have := y.isLt
        have : ¬ (sx ≤ x.val ∧ x.val < sx + 8 ∧ sy + r0 ≤ y.val ∧ y.val < sy + r0 + (k + 1)) := by omega
        simp only [rowsCover, decide_eq_false this, Bool.false_and]
      exact ⟨c, rfl, by simp [hz], by simp [hz]⟩

/-- R174, R179: when a row that is read lies past memory the loop fails with OutOfBounds. -/
theorem drawRows_error {s : State} {sx sy r0 k : Nat} (c : Canvas) (h : ¬ rowsReadable s sy r0 k) :
    drawRows s sx sy (List.range' r0 k) c = .error .outOfBounds := by
  induction k generalizing r0 c with
  | zero => exact absurd (fun row h1 h2 _ => by omega) h
  | succ k ih =>
    rw [List.range'_succ, drawRows]
    by_cases h0 : memSize ≤ spriteAddr s r0
    · simp only [memRead1]
      rw [if_pos h0]
    · simp only [memRead1]
      rw [if_neg h0]
      simp only
      split
      · next hr =>
        refine ih _ fun hrest => h fun row h1 h2 h3 => ?_
        by_cases e : row = r0
        · subst e
          omega
        · exact hrest row (by omega) (by omega) (.inr (by omega))
      · next hr =>
        refine absurd (fun row h1 h2 h3 => ?_) h
        have : row = r0 := by omega
        subst this
        omega

/-- Everything Draw can do, when its sprite rows lie in memory. -/
theorem execDraw_ok {x y : RegIdx} {n : Nibble} {s : State} (h : spriteReadable s (originY s y) n.toNat) :
    ∃ d : Canvas, execDraw x y n s = .next ((s.setFb d.fb).setV vf (collisionFlag d.collided)) ∧
      (∀ px py, d.fb.get px py =
        (s.fb.get px py ^^ spriteCovers s (originX s x) (originY s y) n.toNat px py)) ∧
      (d.collided = true ↔ ∃ px py, s.fb.get px py = true ∧
        spriteCovers s (originX s x) (originY s y) n.toNat px py = true) := by
  obtain ⟨d, hd, hget, hcol⟩ :=
    drawRows_ok (sx := originX s x) ⟨s.fb, false⟩ ((rowsReadable_zero s (originY s y) n.toNat).mpr h)
  refine ⟨d, ?_, fun px py => ?_, ?_⟩
  · rw [execDraw, List.range_eq_range', hd]
  · rw [hget, rowsCover_zero]
  · simpa [rowsCover_zero] using hcol

/-- Everything Draw can do, when a row it reads lies past memory. -/
theorem execDraw_error {x y : RegIdx} {n : Nibble} {s : State}
    (h : ¬ spriteReadable s (originY s y) n.toNat) : execDraw x y n s = .fault .outOfBounds := by
  rw [execDraw, List.range_eq_range', drawRows_error _ (mt (rowsReadable_zero s _ _).mp h)]
  rfl

/-- A Draw that completed read only rows in memory. -/
theorem spriteReadable_of_next {x y : RegIdx} {n : Nibble} {s t : State} (h : execDraw x y n s = .next t) :
    spriteReadable s (originY s y) n.toNat := by
  by_contra hn
  rw [execDraw_error hn] at h
  cases h

end Sys2Proof.Machine
end

