-- ==== Sys2Proof/Laws/Frames.lean ====
section
/-! SUPPORT. Frames: what each update of the state writes, and how frames combine. -/

namespace Sys2Proof.Machine

theorem Component.same_refl (c : Component) (s : State) : c.same s s := by
  cases c <;> simp [Component.same]

theorem Component.same_trans {c : Component} {s t u : State} (h : c.same s t) (k : c.same t u) : c.same s u := by
  cases c <;> simp only [Component.same] at h k ⊢ <;> first | exact k.trans h | exact fun a => (k a).trans (h a)

theorem OnlyWrites.refl (w : List Component) (s : State) : OnlyWrites w s s := fun c _ => c.same_refl s

theorem OnlyWrites.mono {w w' : List Component} {s t : State} (h : OnlyWrites w s t) (hw : w ⊆ w') :
    OnlyWrites w' s t := fun c hc => h c fun hm => hc (hw hm)

theorem OnlyWrites.trans {w w' : List Component} {s t u : State} (h : OnlyWrites w s t)
    (k : OnlyWrites w' t u) : OnlyWrites (w ++ w') s u := fun c hc =>
  Component.same_trans (h c fun hm => hc (by simp [hm])) (k c fun hm => hc (by simp [hm]))

/-- One after the other, both writing within the same components. -/
theorem OnlyWrites.andThen {w : List Component} {s t u : State} (h : OnlyWrites w s t) (k : OnlyWrites w t u) :
    OnlyWrites w s u := fun c hc => Component.same_trans (h c hc) (k c hc)

theorem onlyWrites_setV (s : State) (x : RegIdx) (b : Byte) : OnlyWrites [.v x] s (s.setV x b) := by
  intro c hc
  cases c with
  | v y => exact s.getV_setV_of_ne b fun e => hc (by simp [e])
  | _ => simp [Component.same]

theorem onlyWrites_setI (s : State) (a : Word) : OnlyWrites [.i] s (s.setI a) := by
  intro c hc
  cases c <;> first | exact absurd (List.mem_singleton.mpr rfl) hc | simp [Component.same]

theorem onlyWrites_setPc (s : State) (a : Word) : OnlyWrites [.pc] s (s.setPc a) := by
  intro c hc
  cases c <;> first | exact absurd (List.mem_singleton.mpr rfl) hc | simp [Component.same]

theorem onlyWrites_setStack (s : State) (k : List Word) : OnlyWrites [.stack] s (s.setStack k) := by
  intro c hc
  cases c <;> first | exact absurd (List.mem_singleton.mpr rfl) hc | simp [Component.same]

theorem onlyWrites_setDt (s : State) (b : Byte) : OnlyWrites [.dt] s (s.setDt b) := by
  intro c hc
  cases c <;> first | exact absurd (List.mem_singleton.mpr rfl) hc | simp [Component.same]

theorem onlyWrites_setSt (s : State) (b : Byte) : OnlyWrites [.st] s (s.setSt b) := by
  intro c hc
  cases c <;> first | exact absurd (List.mem_singleton.mpr rfl) hc | simp [Component.same]

theorem onlyWrites_setFb (s : State) (f : Framebuffer) : OnlyWrites [.fb] s (s.setFb f) := by
  intro c hc
  cases c <;> first | exact absurd (List.mem_singleton.mpr rfl) hc | simp [Component.same]

theorem onlyWrites_setRun (s : State) (r : Run) : OnlyWrites [.run] s (s.setRun r) := by
  intro c hc
  cases c <;> first | exact absurd (List.mem_singleton.mpr rfl) hc | simp [Component.same]

theorem onlyWrites_setKey (s : State) (k : Fin numKeys) (down : Bool) :
    OnlyWrites [.key] s (s.setKey k down) := by
  intro c hc
  cases c <;> first | exact absurd (List.mem_singleton.mpr rfl) hc | simp [Component.same]

/-- R150 to R154: a skip writes PC alone. -/
theorem onlyWrites_skipIf (s : State) (b : Bool) : OnlyWrites [.pc] s (skipIf s b) := by
  cases b
  · exact OnlyWrites.refl _ _
  · exact onlyWrites_setPc s _

/-- R150 to R154: where a skip leaves PC. -/
theorem pc_skipIf (s : State) (b : Bool) : (skipIf s b).pc = if b then s.pc + 2 else s.pc := by
  cases b <;> rfl

end Sys2Proof.Machine
end

