-- ==== Sys2Proof/Laws/Memory.lean ====
section
/-! SUPPORT. Memory: a byte that was written reads as what was written, every other byte is left, every operation keeps
the canonical form (R46, R61, R65). -/

namespace Sys2Proof.Machine

/-! ### lookup, erase and insert -/

theorem Memory.lookup_insert_same (m : Memory) (a : Nat) (b : Byte) :
    Memory.lookup (Memory.insert m a b) a = some b := by
  induction m with
  | nil => simp [Memory.insert, Memory.lookup]
  | cons c m ih =>
    simp only [Memory.insert]
    split
    · simp [Memory.lookup]
    · split
      · simp [Memory.lookup]
      · next h => simp [Memory.lookup, h, ih]

theorem Memory.lookup_insert_of_ne (m : Memory) {a a' : Nat} (b : Byte) (h : a' ≠ a) :
    Memory.lookup (Memory.insert m a b) a' = Memory.lookup m a' := by
  induction m with
  | nil => simp [Memory.insert, Memory.lookup, h.symm]
  | cons c m ih =>
    simp only [Memory.insert]
    split
    · simp [Memory.lookup, h.symm]
    · split
      · next e => subst e; simp [Memory.lookup, h.symm]
      · simp only [Memory.lookup, ih]

theorem Memory.lookup_erase_same (m : Memory) (a : Nat) : Memory.lookup (Memory.erase m a) a = none := by
  induction m with
  | nil => rfl
  | cons c m ih =>
    simp only [Memory.erase]
    split
    · exact ih
    · next e => simp [Memory.lookup, e, ih]

theorem Memory.lookup_erase_of_ne (m : Memory) {a a' : Nat} (h : a' ≠ a) :
    Memory.lookup (Memory.erase m a) a' = Memory.lookup m a' := by
  induction m with
  | nil => rfl
  | cons c m ih =>
    simp only [Memory.erase]
    split
    · next e => subst e; simp [Memory.lookup, h.symm, ih]
    · simp only [Memory.lookup, ih]

/-- Everything an insert lists was listed before or is the new entry. -/
theorem Memory.mem_insert {m : Memory} {a : Nat} {b : Byte} {c : Host.Cell} (h : c ∈ Memory.insert m a b) :
    c = (a, b) ∨ c ∈ m := by
  induction m with
  | nil => simpa [Memory.insert] using h
  | cons d m ih =>
    simp only [Memory.insert] at h
    split at h
    · simpa using h
    · split at h
      · rcases List.mem_cons.mp h with h | h
        · exact .inl h
        · exact .inr (by simp [h])
      · rcases List.mem_cons.mp h with h | h
        · exact .inr (by simp [h])
        · rcases ih h with h | h
          · exact .inl h
          · exact .inr (by simp [h])

theorem Memory.pairwise_insert {m : Memory} (hm : m.Pairwise fun c d => c.1 < d.1) (a : Nat) (b : Byte) :
    (Memory.insert m a b).Pairwise fun c d => c.1 < d.1 := by
  induction m with
  | nil => simp [Memory.insert]
  | cons c m ih =>
    obtain ⟨hc, hm'⟩ := List.pairwise_cons.mp hm
    simp only [Memory.insert]
    split
    · next h =>
      refine List.pairwise_cons.mpr ⟨fun d hd => ?_, hm⟩
      rcases List.mem_cons.mp hd with rfl | hd
      · exact h
      · exact Nat.lt_trans h (hc d hd)
    · split
      · next h1 h2 => exact List.pairwise_cons.mpr ⟨fun d hd => by simpa [← h2] using hc d hd, hm'⟩
      · next h1 h2 =>
        refine List.pairwise_cons.mpr ⟨fun d hd => ?_, ih hm'⟩
        rcases Memory.mem_insert hd with rfl | hd
        · simp only; omega
        · exact hc d hd

theorem Memory.erase_sublist (m : Memory) (a : Nat) : (Memory.erase m a).Sublist m := by
  induction m with
  | nil => exact .slnil
  | cons c m ih =>
    simp only [Memory.erase]
    split
    · exact ih.cons c
    · exact ih.cons_cons c

/-! ### read and write -/

/-- A byte that was written reads as what was written. -/
theorem Memory.read_write_same (p : Params) (m : Memory) (a : Nat) (b : Byte) :
    Memory.read p (Memory.write p m a b) a = b := by
  simp only [Memory.read, Memory.write]
  split
  · next h => simp [Memory.lookup_erase_same, h]
  · simp [Memory.lookup_insert_same]

/-- A write leaves every other byte. -/
theorem Memory.read_write_of_ne (p : Params) (m : Memory) {a a' : Nat} (b : Byte) (h : a' ≠ a) :
    Memory.read p (Memory.write p m a b) a' = Memory.read p m a' := by
  simp only [Memory.read, Memory.write]
  split
  · rw [Memory.lookup_erase_of_ne m h]
  · rw [Memory.lookup_insert_of_ne m b h]

/-- A write keeps the addresses rising. -/
theorem Memory.pairwise_write {m : Memory} (p : Params) (hm : m.Pairwise fun c d => c.1 < d.1) (a : Nat)
    (b : Byte) : (Memory.write p m a b).Pairwise fun c d => c.1 < d.1 := by
  simp only [Memory.write]
  split
  · exact hm.sublist (Memory.erase_sublist m a)
  · exact Memory.pairwise_insert hm a b

/-- A write in bounds keeps the canonical form. -/
theorem Memory.wf_write {p : Params} {m : Memory} (hm : Memory.wf p m) {a : Nat} (ha : a < memSize) (b : Byte) :
    Memory.wf p (Memory.write p m a b) := by
  refine ⟨Memory.pairwise_write p hm.1 a b, fun c hc => ?_⟩
  simp only [Memory.write] at hc
  split at hc
  · exact hm.2 c ((Memory.erase_sublist m a).subset hc)
  · next h =>
    rcases Memory.mem_insert hc with rfl | hc
    · exact ⟨ha, h⟩
    · exact hm.2 c hc

/-- Writing bytes in bounds keeps the canonical form (R65). -/
theorem Memory.wf_writeAll {p : Params} {m : Memory} (hm : Memory.wf p m) {a : Nat} (bs : List Byte)
    (ha : a + bs.length ≤ memSize) : Memory.wf p (Memory.writeAll p m a bs) := by
  induction bs generalizing m a with
  | nil => exact hm
  | cons b bs ih =>
    simp only [List.length_cons] at ha
    exact ih (Memory.wf_write hm (by omega) b) (by omega)

/-- Writing bytes leaves every byte outside them (R65). -/
theorem Memory.read_writeAll_outside (p : Params) (m : Memory) {a a' : Nat} (bs : List Byte)
    (h : a' < a ∨ a + bs.length ≤ a') : Memory.read p (Memory.writeAll p m a bs) a' = Memory.read p m a' := by
  induction bs generalizing m a with
  | nil => rfl
  | cons b bs ih =>
    simp only [List.length_cons] at h
    rw [Memory.writeAll, ih (Memory.write p m a b) (by omega), Memory.read_write_of_ne p m b (by omega)]

/-- The bytes written read back in order (R65). -/
theorem Memory.read_writeAll_inside (p : Params) (m : Memory) (a : Nat) (bs : List Byte) (j : Nat)
    (h : j < bs.length) :
    Memory.read p (Memory.writeAll p m a bs) (a + j) = bs[j] := by
  induction bs generalizing m a j with
  | nil => simp at h
  | cons b bs ih =>
    rw [Memory.writeAll]
    cases j with
    | zero =>
      rw [Memory.read_writeAll_outside p _ bs (by omega)]
      simpa using Memory.read_write_same p m a b
    | succ j =>
      have := ih (Memory.write p m a b) (a + 1) j (by simpa using h)
      rw [show a + (j + 1) = a + 1 + j by omega]
      simpa using this

end Sys2Proof.Machine
end

