-- ==== Sys2Proof/Laws/PerInstr.lean ====
section
/-! SUPPORT. A statement about every instruction, made constructor by constructor: its encoding matches its row of
spec/opcode_table.json under the row's mask, and its profile is the row's. -/

namespace Sys2Proof.Laws.EncodingMatchesRow

/-- The word of `i` agrees with the `match` column of its row wherever the `mask` column has a bit, and the row
is one of the EXT_IO profile exactly when the major opcode is E or F (R92, R95, R190). -/
def Statement (i : Instr) : Prop :=
  encode i &&& i.rowMask = i.rowMatch ∧
  (i.profile = .extIo ↔ fieldN1 (encode i) = 0xE ∨ fieldN1 (encode i) = 0xF)

/-- Mask 0xF000 keeps the major opcode. -/
theorem mask_F000 (w : Word) : w &&& 0xF000 = formatNNN (fieldN1 w) 0 := by
  have h : formatNNN (fieldN1 w) 0 = (w >>> 12) <<< 12 := by
    apply BitVec.eq_of_toNat_eq
    have := w.isLt
    rw [toNat_formatNNN, toNat_fieldN1]
    simp only [BitVec.toNat_shiftLeft, BitVec.toNat_ushiftRight, Nat.shiftLeft_eq, Nat.shiftRight_eq_div_pow]
    rw [show (0 : Addr12).toNat = 0 from rfl]
    omega
  rw [h]
  apply BitVec.eq_of_getLsbD_eq
  intro i hi
  interval_cases i <;> simp

/-- Mask 0xF00F keeps the major opcode and the last nibble. -/
theorem mask_F00F (w : Word) : w &&& 0xF00F = formatXYN (fieldN1 w) 0 0 (fieldN w) := by
  have h : formatXYN (fieldN1 w) 0 0 (fieldN w) = (w >>> 12) <<< 12 ||| (w <<< 12) >>> 12 := by
    apply BitVec.eq_of_toNat_eq
    have := w.isLt
    rw [toNat_formatXYN, toNat_fieldN1, toNat_fieldN, BitVec.toNat_or]
    simp only [BitVec.toNat_shiftLeft, BitVec.toNat_ushiftRight, Nat.shiftLeft_eq, Nat.shiftRight_eq_div_pow]
    rw [show w.toNat / 2 ^ 12 * 2 ^ 12 % 2 ^ 16 = 2 ^ 12 * (w.toNat / 4096) by omega,
      show w.toNat * 2 ^ 12 % 2 ^ 16 / 2 ^ 12 = w.toNat % 16 by omega,
      ← Nat.two_pow_add_eq_or_of_lt (by omega), show (0 : RegIdx).toNat = 0 from rfl]
    omega
  rw [h]
  apply BitVec.eq_of_getLsbD_eq
  intro i hi
  interval_cases i <;> simp

/-- The statement for a row under mask 0xF000. -/
theorem ofF000 (i : Instr) (op : Nibble) (hf : fieldN1 (encode i) = op) (hm : i.rowMask = 0xF000)
    (hr : i.rowMatch = formatNNN op 0) (hp : i.profile = .base) (ho : op ≠ 0xE ∧ op ≠ 0xF) : Statement i := by
  refine ⟨by rw [hm, hr, mask_F000, hf], ?_⟩
  rw [hp, hf]
  constructor
  · intro h
    cases h
  · rintro (h | h)
    · exact absurd h ho.1
    · exact absurd h ho.2

/-- The statement for a row under mask 0xF00F. -/
theorem ofF00F (i : Instr) (op : Nibble) (hf : fieldN1 (encode i) = op) (hn : fieldN (encode i) = 0)
    (hm : i.rowMask = 0xF00F) (hr : i.rowMatch = formatXYN op 0 0 0) (hp : i.profile = .base)
    (ho : op ≠ 0xE ∧ op ≠ 0xF) : Statement i := by
  refine ⟨by rw [hm, hr, mask_F00F, hf, hn], ?_⟩
  rw [hp, hf]
  constructor
  · intro h
    cases h
  · rintro (h | h)
    · exact absurd h ho.1
    · exact absurd h ho.2

/-- The statement for a row of format XFF. -/
theorem ofXFF (i : Instr) (op : Nibble) (x : RegIdx) (kk : Byte) (he : encode i = formatXKK op x kk)
    (hm : i.rowMask = 0xF0FF) (hr : i.rowMatch = formatXKK op 0 kk) (hp : i.profile = .extIo)
    (ho : op = 0xE ∨ op = 0xF) : Statement i := by
  refine ⟨?_, by simpa [hp, he] using ho⟩
  rw [he, hm, hr]
  exact (mask_F0FF _ _ _).mpr ⟨by simp, by simp⟩

theorem clearScreen : Statement .clearScreen := by unfold Statement; decide

theorem ret : Statement .ret := by unfold Statement; decide

theorem jump (nnn : Addr12) : Statement (.jump nnn) :=
  ofF000 _ 0x1 (fieldN1_formatNNN _ _) rfl rfl rfl (by decide)

theorem call (nnn : Addr12) : Statement (.call nnn) :=
  ofF000 _ 0x2 (fieldN1_formatNNN _ _) rfl rfl rfl (by decide)

theorem skipEqVal (x : RegIdx) (kk : Byte) : Statement (.skipEqVal x kk) :=
  ofF000 _ 0x3 (fieldN1_formatXKK _ _ _) rfl rfl rfl (by decide)

theorem skipNeVal (x : RegIdx) (kk : Byte) : Statement (.skipNeVal x kk) :=
  ofF000 _ 0x4 (fieldN1_formatXKK _ _ _) rfl rfl rfl (by decide)

theorem skipEqReg (x y : RegIdx) : Statement (.skipEqReg x y) :=
  ofF00F _ 0x5 (fieldN1_formatXYN _ _ _ _) (fieldN_formatXYN _ _ _ _) rfl rfl rfl (by decide)

theorem setRegister (x : RegIdx) (kk : Byte) : Statement (.setRegister x kk) :=
  ofF000 _ 0x6 (fieldN1_formatXKK _ _ _) rfl rfl rfl (by decide)

theorem addRegister (x : RegIdx) (kk : Byte) : Statement (.addRegister x kk) :=
  ofF000 _ 0x7 (fieldN1_formatXKK _ _ _) rfl rfl rfl (by decide)

theorem skipNeReg (x y : RegIdx) : Statement (.skipNeReg x y) :=
  ofF00F _ 0x9 (fieldN1_formatXYN _ _ _ _) (fieldN_formatXYN _ _ _ _) rfl rfl rfl (by decide)

theorem setIndex (nnn : Addr12) : Statement (.setIndex nnn) :=
  ofF000 _ 0xA (fieldN1_formatNNN _ _) rfl rfl rfl (by decide)

theorem draw (x y : RegIdx) (n : Nibble) : Statement (.draw x y n) :=
  ofF000 _ 0xD (fieldN1_formatXYN _ _ _ _) rfl rfl rfl (by decide)

theorem skipKeyPressed (x : RegIdx) : Statement (.skipKeyPressed x) :=
  ofXFF _ 0xE x 0x9E rfl rfl rfl rfl (.inl rfl)

theorem skipKeyNotPressed (x : RegIdx) : Statement (.skipKeyNotPressed x) :=
  ofXFF _ 0xE x 0xA1 rfl rfl rfl rfl (.inl rfl)

theorem getDelay (x : RegIdx) : Statement (.getDelay x) := ofXFF _ 0xF x 0x07 rfl rfl rfl rfl (.inr rfl)

theorem waitKey (x : RegIdx) : Statement (.waitKey x) := ofXFF _ 0xF x 0x0A rfl rfl rfl rfl (.inr rfl)

theorem setDelay (x : RegIdx) : Statement (.setDelay x) := ofXFF _ 0xF x 0x15 rfl rfl rfl rfl (.inr rfl)

theorem setSound (x : RegIdx) : Statement (.setSound x) := ofXFF _ 0xF x 0x18 rfl rfl rfl rfl (.inr rfl)

theorem setIndexFont (x : RegIdx) : Statement (.setIndexFont x) := ofXFF _ 0xF x 0x29 rfl rfl rfl rfl (.inr rfl)

end Sys2Proof.Laws.EncodingMatchesRow
end

