-- ==== Sys2Proof/Laws/Step.lean ====
section
/-! SUPPORT. What a tick can do, said once: it is the fetched instruction's meaning past the fetch, or it fails as the
fetch or the decode does, or it is refused in the Idle state (R120 to R126). -/

namespace Sys2Proof.Machine

/-- R63: a fetch from a PC of at most 0x0FFE reads the word at PC. -/
theorem memRead2_ok {s : State} {a : Nat} (h : a ≤ 0x0FFE) :
    memRead2 s a = .ok (wordOfBytes (s.byteAt a) (s.byteAt (a + 1))) := by
  rw [memRead2, if_neg (by simp only [memSize]; omega)]

theorem memRead2_error {s : State} {a : Nat} (h : 0x0FFF ≤ a) : memRead2 s a = .error .outOfBounds := by
  rw [memRead2, if_pos (by simp only [memSize]; omega)]

/-- R120 to R123: a tick that fetches an instruction is that instruction past the fetch. -/
theorem step_of_fetches {s : State} {i : Instr} (h : Fetches s i) : step s = exec i (s.setPc (s.pc + 2)) := by
  obtain ⟨hrun, hpc, hdec⟩ := h
  simp only [step, nextInstruction, hrun, fetchStep, memRead2_ok hpc, decodeStep, State.advancePc_eq,
    State.setPc_params]
  unfold wordAtPc at hdec
  rw [hdec]

theorem step_of_fetch_error {s : State} (hrun : s.run = .running) (h : 0x0FFF ≤ s.pc.toNat) :
    step s = .fault .outOfBounds := by
  simp only [step, nextInstruction, hrun, fetchStep, memRead2_error h, raise]

theorem step_of_decode_error {s : State} (hrun : s.run = .running) (hpc : s.pc.toNat ≤ 0x0FFE) {e : DecodeError}
    (h : decodeWord s.params.extIo (wordAtPc s) = .error e) : step s = .fault (.unknownOpcode (wordAtPc s)) := by
  unfold wordAtPc at h ⊢
  simp only [step, nextInstruction, hrun, fetchStep, memRead2_ok hpc, decodeStep, State.advancePc_eq,
    State.setPc_params, h, raise]

theorem step_of_idle {s : State} (hrun : s.run = .idle) : step s = .refused .advanceWhileIdle := by
  simp only [step, nextInstruction, hrun]

/-- What the next tick meets: nothing in the Idle state, a PC it cannot fetch from, a word that does not decode,
or an instruction. -/
theorem tick_cases (s : State) :
    s.run = .idle ∨ (s.run = .running ∧ 0x0FFF ≤ s.pc.toNat) ∨
    (s.run = .running ∧ s.pc.toNat ≤ 0x0FFE ∧
      decodeWord s.params.extIo (wordAtPc s) = .error (.unknownOpcode (wordAtPc s))) ∨
    ∃ i, Fetches s i := by
  rcases hrun : s.run with _ | _
  · exact .inl rfl
  · by_cases hpc : s.pc.toNat ≤ 0x0FFE
    · rcases hdec : decodeWord s.params.extIo (wordAtPc s) with e | i
      · exact .inr (.inr (.inl ⟨rfl, hpc, by rw [decodeWord_error hdec]⟩))
      · exact .inr (.inr (.inr ⟨i, hrun, hpc, hdec⟩))
    · exact .inr (.inl ⟨rfl, by omega⟩)

/-- A tick that ends in a next state ran the instruction it fetched. -/
theorem fetches_of_step_next {s t : State} (h : step s = .next t) :
    ∃ i, Fetches s i ∧ exec i (s.setPc (s.pc + 2)) = .next t := by
  rcases tick_cases s with hi | ⟨hr, hp⟩ | ⟨hr, hp, hd⟩ | ⟨i, hf⟩
  · rw [step_of_idle hi] at h; cases h
  · rw [step_of_fetch_error hr hp] at h; cases h
  · rw [step_of_decode_error hr hp hd] at h; cases h
  · exact ⟨i, hf, by rw [← step_of_fetches hf]; exact h⟩

/-- R37: past the fetch PC is exactly 2 higher. -/
theorem toNat_pc_add_two {s : State} {i : Instr} (h : Fetches s i) : (s.pc + 2).toNat = s.pc.toNat + 2 := by
  have := h.2.1
  rw [BitVec.toNat_add, show (2 : Word).toNat = 2 from rfl]
  omega

/-- R123: what each instruction answers when it completes, as one case each. -/
inductive Executes (s : State) : Instr → State → Prop where
  | clearScreen : Executes s .clearScreen (s.setFb Framebuffer.clear)
  | ret (top : Word) (rest : List Word) : s.stack = top :: rest →
      Executes s .ret ((s.setStack rest).setPc top)
  | jump (nnn : Addr12) : Executes s (.jump nnn) (s.setPc (addrOperand nnn))
  | call (nnn : Addr12) : s.params.stackLimit ≠ some s.stack.length →
      Executes s (.call nnn) ((s.setStack (s.pc :: s.stack)).setPc (addrOperand nnn))
  | skipEqVal (x : RegIdx) (kk : Byte) : Executes s (.skipEqVal x kk) (skipIf s (s.getV x == kk))
  | skipNeVal (x : RegIdx) (kk : Byte) : Executes s (.skipNeVal x kk) (skipIf s (s.getV x != kk))
  | skipEqReg (x y : RegIdx) : Executes s (.skipEqReg x y) (skipIf s (s.getV x == s.getV y))
  | skipNeReg (x y : RegIdx) : Executes s (.skipNeReg x y) (skipIf s (s.getV x != s.getV y))
  | setRegister (x : RegIdx) (kk : Byte) : Executes s (.setRegister x kk) (s.setV x kk)
  | addRegister (x : RegIdx) (kk : Byte) : Executes s (.addRegister x kk) (s.setV x (addByte (s.getV x) kk))
  | setIndex (nnn : Addr12) : Executes s (.setIndex nnn) (s.setI (addrOperand nnn))
  | draw (x y : RegIdx) (n : Nibble) (d : Canvas) : spriteReadable s (originY s y) n.toNat →
      (∀ px py, d.fb.get px py =
        (s.fb.get px py ^^ spriteCovers s (originX s x) (originY s y) n.toNat px py)) →
      (d.collided = true ↔ ∃ px py, s.fb.get px py = true ∧
        spriteCovers s (originX s x) (originY s y) n.toNat px py = true) →
      Executes s (.draw x y n) ((s.setFb d.fb).setV vf (collisionFlag d.collided))
  | skipKeyPressed (x : RegIdx) (k : Fin numKeys) : (s.getV x).toNat = k.val →
      Executes s (.skipKeyPressed x) (skipIf s (s.keyDown k))
  | skipKeyNotPressed (x : RegIdx) (k : Fin numKeys) : (s.getV x).toNat = k.val →
      Executes s (.skipKeyNotPressed x) (skipIf s (!s.keyDown k))
  | getDelay (x : RegIdx) : Executes s (.getDelay x) (s.setV x s.dt)
  | waitKeyPressed (x : RegIdx) (k : Fin numKeys) : s.firstKey = some k →
      Executes s (.waitKey x) (s.setV x (BitVec.ofNat 8 k.val))
  | waitKeyAgain (x : RegIdx) : s.firstKey = none → Executes s (.waitKey x) (s.setPc (s.pc - 2))
  | setDelay (x : RegIdx) : Executes s (.setDelay x) (s.setDt (s.getV x))
  | setSound (x : RegIdx) : Executes s (.setSound x) (s.setSt (s.getV x))
  | setIndexFont (x : RegIdx) : Executes s (.setIndexFont x) (s.setI (glyphOperand s x))

/-- R191: V[x] as a key id. -/
theorem keyOperand_eq_some {s : State} {x : RegIdx} {k : Fin numKeys} :
    keyOperand s x = some k ↔ (s.getV x).toNat = k.val := by
  unfold keyOperand
  split
  · next h =>
    rw [Option.some.injEq]
    exact ⟨fun e => by rw [← e], fun e => Fin.ext e⟩
  · next h =>
    refine ⟨fun e => (by cases e), fun e => ?_⟩
    have := k.isLt
    omega

theorem keyOperand_eq_none {s : State} {x : RegIdx} : keyOperand s x = none ↔ 15 < (s.getV x).toNat := by
  unfold keyOperand
  split
  · next h => simp only [numKeys] at h; simp; omega
  · next h => simp only [numKeys] at h; simp; omega

/-- The inversion of `exec`: an instruction that completes has the effect of its case. -/
theorem executes_of_next {i : Instr} {s t : State} (h : exec i s = .next t) : Executes s i t := by
  cases i with
  | ret =>
    simp only [exec, execReturn] at h
    split at h
    · cases h
    · next top rest hs => cases h; exact .ret top rest hs
  | call nnn =>
    simp only [exec, execCall] at h
    split at h
    · cases h
    · next hs => cases h; exact .call nnn (by simpa [State.stackFull] using hs)
  | draw x y n =>
    have hr := spriteReadable_of_next h
    obtain ⟨d, hd, hget, hcol⟩ := execDraw_ok (x := x) hr
    cases hd.symm.trans h
    exact .draw x y n d hr hget hcol
  | skipKeyPressed x =>
    simp only [exec, execSkipKeyPressed] at h
    split at h
    · cases h
    · next k hk => cases h; exact .skipKeyPressed x k (keyOperand_eq_some.mp hk)
  | skipKeyNotPressed x =>
    simp only [exec, execSkipKeyNotPressed] at h
    split at h
    · cases h
    · next k hk => cases h; exact .skipKeyNotPressed x k (keyOperand_eq_some.mp hk)
  | waitKey x =>
    simp only [exec, execWaitKey] at h
    split at h
    · next k hk => cases h; exact .waitKeyPressed x k hk
    · next hk => cases h; exact .waitKeyAgain x hk
  | clearScreen => cases h; exact .clearScreen
  | jump nnn => cases h; exact .jump nnn
  | skipEqVal x kk => cases h; exact .skipEqVal x kk
  | skipNeVal x kk => cases h; exact .skipNeVal x kk
  | skipEqReg x y => cases h; exact .skipEqReg x y
  | skipNeReg x y => cases h; exact .skipNeReg x y
  | setRegister x kk => cases h; exact .setRegister x kk
  | addRegister x kk => cases h; exact .addRegister x kk
  | setIndex nnn => cases h; exact .setIndex nnn
  | getDelay x => cases h; exact .getDelay x
  | setDelay x => cases h; exact .setDelay x
  | setSound x => cases h; exact .setSound x
  | setIndexFont x => cases h; exact .setIndexFont x

/-- The inversion of `exec` for errors: an instruction fails exactly as R125 lists. -/
theorem exec_fault_iff {i : Instr} {s : State} {f : Fault} : exec i s = .fault f ↔ ExecFails s i f := by
  constructor
  · intro h
    cases i with
    | ret =>
      simp only [exec, execReturn] at h
      split at h
      · next hs => cases h; exact .ret hs
      · cases h
    | call nnn =>
      simp only [exec, execCall] at h
      split at h
      · next hs => cases h; exact .call nnn (by simpa [State.stackFull] using hs)
      · cases h
    | draw x y n =>
      by_cases hr : spriteReadable s (originY s y) n.toNat
      · obtain ⟨d, hd, -, -⟩ := execDraw_ok (x := x) hr
        cases hd.symm.trans h
      · cases (execDraw_error hr).symm.trans h
        exact .draw x y n hr
    | skipKeyPressed x =>
      simp only [exec, execSkipKeyPressed] at h
      split at h
      · next hk => cases h; exact .skipKeyPressed x (keyOperand_eq_none.mp hk)
      · cases h
    | skipKeyNotPressed x =>
      simp only [exec, execSkipKeyNotPressed] at h
      split at h
      · next hk => cases h; exact .skipKeyNotPressed x (keyOperand_eq_none.mp hk)
      · cases h
    | waitKey x =>
      simp only [exec, execWaitKey] at h
      split at h <;> cases h
    | _ => cases h
  · intro h
    cases h with
    | ret hs => simp [exec, execReturn, hs, raise]
    | call nnn hs => simp [exec, execCall, State.stackFull, hs, raise]
    | draw x y n hr => exact execDraw_error hr
    | skipKeyPressed x hx => simp [exec, execSkipKeyPressed, keyOperand_eq_none.mpr hx, raise]
    | skipKeyNotPressed x hx => simp [exec, execSkipKeyNotPressed, keyOperand_eq_none.mpr hx, raise]

/-- R93: a 12-bit address keeps its value. -/
theorem toNat_addrOperand (nnn : Addr12) : (addrOperand nnn).toNat = nnn.toNat := by
  have := nnn.isLt
  simp only [addrOperand, BitVec.toNat_setWidth]
  omega

/-- R197: the glyph's address is exact. -/
theorem toNat_glyphOperand (s : State) (x : RegIdx) :
    (glyphOperand s x).toNat = s.params.fontBase.toNat + 5 * ((s.getV x).toNat % 16) := by
  have := s.params.fontBase.isLt
  simp only [glyphOperand, glyphBytes, BitVec.toNat_ofNat]
  omega

/-- No instruction is refused (R123, R221). -/
theorem exec_ne_refused (i : Instr) (s : State) (r : Refusal) : exec i s ≠ .refused r := by
  intro h
  cases i with
  | ret => simp only [exec, execReturn] at h; split at h <;> cases h
  | call => simp only [exec, execCall] at h; split at h <;> cases h
  | draw => simp only [exec, execDraw] at h; split at h <;> cases h
  | skipKeyPressed => simp only [exec, execSkipKeyPressed] at h; split at h <;> cases h
  | skipKeyNotPressed => simp only [exec, execSkipKeyNotPressed] at h; split at h <;> cases h
  | waitKey => simp only [exec, execWaitKey] at h; split at h <;> cases h
  | _ => cases h

/-- Why an instruction fails does not depend on PC. -/
theorem execFails_setPc {s : State} {i : Instr} {f : Fault} {a : Word} :
    ExecFails (s.setPc a) i f ↔ ExecFails s i f := by
  constructor <;> intro h <;> cases h <;> constructor <;> assumption

/-- R50, R129: no instruction writes memory, the key map, the run state or the parameters. -/
theorem exec_keeps {i : Instr} {s t : State} (h : exec i s = .next t) :
    t.mem = s.mem ∧ t.key = s.key ∧ t.run = s.run ∧ t.params = s.params := by
  cases executes_of_next h <;>
    first | exact ⟨rfl, rfl, rfl, rfl⟩ | (unfold skipIf; split <;> exact ⟨rfl, rfl, rfl, rfl⟩)

/-- R194: no key is pressed. -/
theorem firstKey_eq_none {s : State} (h : ∀ k, s.keyDown k = false) : s.firstKey = none := by
  simp [State.firstKey, h]

/-- R194: the least pressed key. -/
theorem firstKey_eq_some {s : State} {k : Fin numKeys} (h : s.keyDown k = true)
    (least : ∀ j, j < k → s.keyDown j = false) : s.firstKey = some k := by
  unfold State.firstKey
  rw [List.find?_eq_some_iff_getElem]
  refine ⟨h, k.val, by simp, by simp, fun j hj => ?_⟩
  simpa using least ⟨j, by omega⟩ hj

/-- R174: the rows of a sprite depend on I, memory and the parameters alone. -/
theorem drawRows_congr {s t : State} (hi : t.i = s.i) (hm : t.mem = s.mem) (hp : t.params = s.params)
    (sx sy : Nat) (rows : List Nat) (c : Canvas) : drawRows t sx sy rows c = drawRows s sx sy rows c := by
  induction rows generalizing c with
  | nil => rfl
  | cons row rows ih =>
    have : memRead1 t (spriteAddr t row) = memRead1 s (spriteAddr s row) := by
      unfold memRead1 spriteAddr State.byteAt
      rw [hi, hm, hp]
    simp only [drawRows, this, ih]

end Sys2Proof.Machine
end

