-- ==== Sys2Proof/Laws/Transactions.lean ====
section
/-! SUPPORT. What the host's operations can do, said once (R127, R235, R256), and the induction over the ticks of an
ADVANCE; and the range check of the assembler (R104). -/

namespace Sys2Proof.Machine

/-- R127: what holds of no tick, and is passed back over one, holds of an ADVANCE, whatever it answers. -/
theorem runTicks_induction {P : State → State → Prop} (refl : ∀ s, P s s)
    (tick : ∀ s t u, step s = .next t → P t u → P s u) {n : Nat} {s t : State} {r : Reply}
    (h : runTicks n s = .answered t r) : P s t := by
  induction n generalizing s with
  | zero => cases h; exact refl _
  | succ n ih =>
    simp only [runTicks] at h
    split at h
    · next hu => exact tick _ _ _ hu (ih h)
    · cases h; exact refl _
    · cases h

/-- R126, R127: ADVANCE in the Running state. -/
theorem advance_of_running {s : State} (h : s.run = .running) (n : Nat) : advance n s = runTicks n s := by
  simp [advance, h]

/-- R127: the same induction over ADVANCE. -/
theorem advance_induction {P : State → State → Prop} (refl : ∀ s, P s s)
    (tick : ∀ s t u, step s = .next t → P t u → P s u) {n : Nat} {s t : State} {r : Reply}
    (h : advance n s = .answered t r) : P s t := by
  unfold advance at h
  split at h
  · cases h
  · exact runTicks_induction refl tick h

/-- R255, R256: LOAD changes nothing, or copies every byte. -/
theorem load_cases {bytes : List Byte} {s t : State} {r : Reply} (h : load bytes s = .answered t r) :
    (memSize < progBase + bytes.length ∧ t = s ∧ r = .err .capacityExceeded) ∨
    (progBase + bytes.length ≤ memSize ∧ r = .ok ∧
      t = (({ s with mem := Memory.writeAll s.params s.mem progBase bytes } : State).setPc
        (BitVec.ofNat 16 progBase)).setRun .running) := by
  unfold load memWrite at h
  by_cases hc : memSize < progBase + bytes.length
  · rw [if_pos hc] at h
    cases h
    exact .inl ⟨hc, rfl, rfl⟩
  · rw [if_neg hc] at h
    cases h
    exact .inr ⟨by omega, rfl, rfl⟩

/-- R235: SUBMIT_KEY sets one key. -/
theorem submitKey_cases {k : Nat} {down : Bool} {s t : State} {r : Reply}
    (h : submitKey k down s = .answered t r) :
    ∃ hk : k < numKeys, t = s.setKey ⟨k, hk⟩ down ∧ r = .nothing := by
  unfold submitKey at h
  split at h
  · next hk => cases h; exact ⟨hk, rfl, rfl⟩
  · cases h

/-- R104: a field's own value passes the assembler's range check. -/
@[simp] theorem asField_toNat (w : Nat) (b : BitVec w) : asField w b.toNat = some b := by
  simp [asField, b.isLt]

/-- R104: a field's value is the number written. -/
theorem asField_eq_some {w n : Nat} {b : BitVec w} : asField w n = some b ↔ n = b.toNat := by
  constructor
  · intro h
    unfold asField at h
    split at h
    · next hn => rw [← Option.some.inj h, BitVec.toNat_ofNat, Nat.mod_eq_of_lt hn]
    · cases h
  · rintro rfl
    exact asField_toNat w b

/-- R104: exactly the numbers outside a field are refused. -/
theorem asField_eq_none {w n : Nat} : asField w n = none ↔ 2 ^ w ≤ n := by
  unfold asField
  split <;> simp <;> omega

/-! ### What a format accepts: operands that are the written numbers, and nothing else (R104) -/

theorem asmNNN_eq_some {f : Addr12 → Instr} {a : Nat} {i : Instr} :
    asmNNN f a = some i ↔ ∃ nnn, a = nnn.toNat ∧ i = f nnn := by
  simp only [asmNNN, Option.map_eq_some_iff, asField_eq_some, eq_comm (a := i)]

theorem asmXKK_eq_some {f : RegIdx → Byte → Instr} {x k : Nat} {i : Instr} :
    asmXKK f x k = some i ↔ ∃ rx kk, x = rx.toNat ∧ k = kk.toNat ∧ i = f rx kk := by
  simp only [asmXKK, Option.bind_eq_some_iff, Option.map_eq_some_iff, asField_eq_some, exists_and_left, eq_comm (a := i)]

theorem asmXY_eq_some {f : RegIdx → RegIdx → Instr} {x y : Nat} {i : Instr} :
    asmXY f x y = some i ↔ ∃ rx ry, x = rx.toNat ∧ y = ry.toNat ∧ i = f rx ry := by
  simp only [asmXY, Option.bind_eq_some_iff, Option.map_eq_some_iff, asField_eq_some, exists_and_left, eq_comm (a := i)]

theorem asmXYN_eq_some {f : RegIdx → RegIdx → Nibble → Instr} {x y n : Nat} {i : Instr} :
    asmXYN f x y n = some i ↔ ∃ rx ry r, x = rx.toNat ∧ y = ry.toNat ∧ n = r.toNat ∧ i = f rx ry r := by
  simp only [asmXYN, Option.bind_eq_some_iff, Option.map_eq_some_iff, asField_eq_some, exists_and_left, eq_comm (a := i)]

theorem asmX_eq_some {f : RegIdx → Instr} {x : Nat} {i : Instr} :
    asmX f x = some i ↔ ∃ rx, x = rx.toNat ∧ i = f rx := by
  simp only [asmX, Option.map_eq_some_iff, asField_eq_some, eq_comm (a := i)]

end Sys2Proof.Machine
end

