-- ==== Sys2Proof/Tests/Slice0.lean ====
section
/-! SUPPORT. The model's own tests: the smoke test of WellFormed, words written out from the spec's encodings, the
vectors of spec/95_test_vectors.md for single ticks and single host operations, and for every obligation with
hypotheses a witness that meets them. Every expected value is the spec's or worked out by hand from its rules; each
test names its vector. -/

namespace Sys2Proof.Tests

open Sys2Proof Sys2Proof.Machine

/-! ### Helpers -/

/-- The state a host operation leaves, for one that is answered. -/
def stateOf : Answer → State
  | .answered s _ => s
  | .refused _ => State.reset

/-- A core with the given parameters after LOAD of the given bytes. -/
def loadedWith (p : Params) (bytes : List Byte) : State := stateOf (load bytes (State.construct p))

/-- This hardware after LOAD of the given bytes. -/
def loaded (bytes : List Byte) : State := loadedWith Params.hardware bytes

/-- This hardware's parameters but with EXT_IO true. -/
def extParams : Params := { Params.hardware with extIo := true }

/-- A core with EXT_IO true after LOAD of the given bytes. -/
def loadedExt (bytes : List Byte) : State := loadedWith extParams bytes

/-- One byte of memory changed. -/
def poke (s : State) (a : Nat) (b : Byte) : State := { s with mem := Memory.write s.params s.mem a b }

/-- What a result's next state says, if it is one. -/
def nextIs {α : Type} (f : State → α) : Host.Outcome State Fault Refusal → Option α
  | .next t => some (f t)
  | .fault _ => none
  | .refused _ => none

/-- The fault of a result, if it is one. -/
def faultIs : Host.Outcome State Fault Refusal → Option Fault
  | .next _ => none
  | .fault f => some f
  | .refused _ => none

/-- The pixels that are on in one row. -/
def rowOn (s : State) (y : Fin dispH) : List Nat := (List.range 64).filter fun x => s.fb[y][x]!

/-! ### WellFormed: what each check refuses -/

theorem test_extIo_instruction_is_ill_formed : (Instr.waitKey 2).wellFormed false = false := by decide
theorem test_extIo_instruction_is_well_formed : (Instr.waitKey 2).wellFormed true = true := by decide
theorem test_base_instruction_is_well_formed : (Instr.draw 15 15 15).wellFormed false = true := by decide
theorem test_font_in_program_region_is_ill_formed : { Params.hardware with fontBase := 0x1B1 }.wf = false := by decide
theorem test_font_just_below_program_is_well_formed :
    { Params.hardware with fontBase := 0x1B0 }.wf = true := by decide
theorem test_hardware_params_are_well_formed : Params.hardware.wf = true := by decide

/-- R104: an operand outside its field is refused, one at the field's edge is not. -/
theorem test_assembler_refuses_operands :
    assemble .Jump [.num 0x1000] = none ∧ assemble .Jump [.num 0xFFF] = some (.jump 0xFFF) ∧
    assemble .SetRegister [.reg 16, .num 0] = none ∧ assemble .SetRegister [.reg 15, .num 256] = none ∧
    assemble .Draw [.reg 0, .reg 1, .num 16] = none ∧ assemble .Return [.num 0] = none := by decide

/-- R103: a conventional name stands for the same instruction. -/
theorem test_assembler_aliases :
    assemble .LD [.index, .num 0x20C] = some (.setIndex 0x20C) ∧
    assemble .SE [.reg 1, .reg 2] = some (.skipEqReg 1 2) ∧
    assemble .SNE [.reg 1, .num 2] = some (.skipNeVal 1 2) := by decide

/-- R104 and Part 3, P2: a program with raw bytes. -/
theorem test_assemble_program :
    assembleProgram [.form .SetIndex [.num 0x20C], .form .Draw [.reg 2, .reg 3, .num 1], .bytes [0xC3, 0x00]] =
      some [0xA2, 0x0C, 0xD2, 0x31, 0xC3, 0x00] := by decide

/-- R104: the example of a listing line. -/
theorem test_listing_line : listingLine 0x200 .clearScreen = "0x200: 00E0  ClearScreen" := by decide
/-- Part 3, P2. -/
theorem test_listing_operands : listingLine 0x206 (.draw 2 3 1) = "0x206: D231  Draw V2, V3, 1" := by decide

/-! ### Decode: a word of every instruction, bit by bit from its encoding -/

theorem test_decode_control :
    decodeWord false 0b0000000011100000 = .ok .clearScreen ∧ decodeWord false 0b0000000011101110 = .ok .ret ∧
    decodeWord false 0b0001101010111100 = .ok (.jump 0xABC) ∧
    decodeWord false 0b0010111111111111 = .ok (.call 0xFFF) := by decide
theorem test_decode_skips :
    decodeWord false 0b0011101001010101 = .ok (.skipEqVal 0xA 0x55) ∧
    decodeWord false 0b0100101001010101 = .ok (.skipNeVal 0xA 0x55) ∧
    decodeWord false 0b0101000100100000 = .ok (.skipEqReg 1 2) ∧
    decodeWord false 0b1001000100100000 = .ok (.skipNeReg 1 2) := by decide
theorem test_decode_registers :
    decodeWord false 0b0110111100010010 = .ok (.setRegister 0xF 0x12) ∧
    decodeWord false 0b0111111100000001 = .ok (.addRegister 0xF 0x01) ∧
    decodeWord false 0b1010000100100011 = .ok (.setIndex 0x123) ∧
    decodeWord false 0b1101001000110001 = .ok (.draw 2 3 1) := by decide
theorem test_decode_extIo :
    decodeWord true 0b1110010110011110 = .ok (.skipKeyPressed 5) ∧
    decodeWord true 0b1110010110100001 = .ok (.skipKeyNotPressed 5) ∧
    decodeWord true 0b1111001100000111 = .ok (.getDelay 3) ∧
    decodeWord true 0b1111001000001010 = .ok (.waitKey 2) ∧
    decodeWord true 0b1111000100010101 = .ok (.setDelay 1) ∧
    decodeWord true 0b1111000100011000 = .ok (.setSound 1) ∧
    decodeWord true 0b1111010000101001 = .ok (.setIndexFont 4) := by decide
/-- DE-3 to DE-5, DE-11, DE-13, DE-19, DE-21, DE-24, DE-25. -/
theorem test_decode_refuses :
    decodeWord true 0x0000 = .error (.unknownOpcode 0x0000) ∧
    decodeWord true 0x00E1 = .error (.unknownOpcode 0x00E1) ∧
    decodeWord true 0x0123 = .error (.unknownOpcode 0x0123) ∧
    decodeWord true 0x5121 = .error (.unknownOpcode 0x5121) ∧
    decodeWord true 0x912F = .error (.unknownOpcode 0x912F) ∧
    decodeWord true 0x8014 = .error (.unknownOpcode 0x8014) ∧
    decodeWord false 0xE09E = .error (.unknownOpcode 0xE09E) ∧
    decodeWord true 0xE09F = .error (.unknownOpcode 0xE09F) ∧
    decodeWord true 0xFFFF = .error (.unknownOpcode 0xFFFF) := by decide
theorem test_decode_bytes_big_endian :
    decodeBytes false [0x60, 0x0C, 0x61] = .ok (.setRegister 0 0x0C, [0x61]) := by decide
theorem test_decode_bytes_truncated : decodeBytes false [0x60] = .error .truncated := by decide
theorem test_table_word :
    decodeTableWord 16 0xF329 = some (.setIndexFont 3) ∧ decodeTableWord 16 0x8014 = none := by decide

/-! ### One tick per instruction (95_test_vectors.md, Part 2) -/

/-- CF-1. -/
theorem test_clearScreen :
    nextIs (fun t => (t.fb.get 3 4, t.fb.get 63 31, t.pc, t.getV 15))
      (step { (loaded [0x00, 0xE0]).setV 15 1 with fb := ((loaded []).fb.set 3 4 true).set 63 31 true }) =
    some (false, false, 0x202, 1) := by decide
/-- CF-2. -/
theorem test_return : nextIs (fun t => (t.pc, t.stack)) (step ((loaded [0x00, 0xEE]).setStack [0x204])) =
    some (0x204, []) := by decide
/-- CF-3. -/
theorem test_return_underflow : faultIs (step (loaded [0x00, 0xEE])) = some .stackUnderflow := by decide
/-- CF-6. -/
theorem test_jump : nextIs (·.pc) (step (loaded [0x1F, 0xFF])) = some 0xFFF := by decide
/-- CF-9: the top of the stack stands first. -/
theorem test_call : nextIs (fun t => (t.pc, t.stack)) (step ((loaded [0x24, 0x00]).setStack [0x204])) =
    some (0x400, [0x202, 0x204]) := by decide
/-- CF-11. -/
theorem test_call_overflow :
    faultIs (step ((loadedWith { Params.hardware with stackLimit := some 2 } [0x24, 0x00]).setStack [0x302, 0x204])) =
    some .stackOverflow := by decide
/-- SK-1. -/
theorem test_skipEqVal_holds : nextIs (·.pc) (step ((loaded [0x33, 0x2A]).setV 3 0x2A)) = some 0x204 := by decide
/-- SK-2. -/
theorem test_skipEqVal_fails : nextIs (·.pc) (step ((loaded [0x33, 0x2A]).setV 3 0x2B)) = some 0x202 := by decide
/-- SK-3. -/
theorem test_skipNeVal_fails : nextIs (·.pc) (step ((loaded [0x43, 0x2A]).setV 3 0x2A)) = some 0x202 := by decide
/-- SK-4. -/
theorem test_skipNeVal_holds : nextIs (·.pc) (step ((loaded [0x43, 0x2A]).setV 3 0x2B)) = some 0x204 := by decide
/-- SK-5. -/
theorem test_skipEqReg_holds :
    nextIs (·.pc) (step (((loaded [0x51, 0x20]).setV 1 7).setV 2 7)) = some 0x204 := by decide
/-- SK-6. -/
theorem test_skipEqReg_fails :
    nextIs (·.pc) (step (((loaded [0x51, 0x20]).setV 1 7).setV 2 8)) = some 0x202 := by decide
/-- SK-9. -/
theorem test_skipNeReg_holds :
    nextIs (·.pc) (step (((loaded [0x91, 0x20]).setV 1 7).setV 2 8)) = some 0x204 := by decide
/-- SK-8. -/
theorem test_skipNeReg_fails : nextIs (·.pc) (step ((loaded [0x94, 0x40]).setV 4 9)) = some 0x202 := by decide
/-- RO-2. -/
theorem test_setRegister_vf : nextIs (fun t => (t.getV 15, t.pc)) (step (loaded [0x6F, 0x12])) =
    some (0x12, 0x202) := by decide
/-- RO-3 and WE-4. -/
theorem test_addRegister_wraps :
    nextIs (fun t => (t.getV 2, t.getV 15)) (step (((loaded [0x72, 0x0A]).setV 2 0xFA).setV 15 1)) =
    some (0x04, 0x01) := by decide
/-- RO-6. -/
theorem test_addRegister_vf : nextIs (·.getV 15) (step ((loaded [0x7F, 0xFF]).setV 15 1)) = some 0 := by decide
/-- RO-9. -/
theorem test_setIndex : nextIs (fun t => (t.i, t.pc)) (step ((loaded [0xAF, 0xFF]).setI 0x123)) =
    some (0x0FFF, 0x202) := by decide
/-- DR-1: the rows 8 and 9 of glyph 0. -/
theorem test_draw_glyph :
    nextIs (fun t => (rowOn t 8, rowOn t 9, t.getV 15, t.pc))
      (step (((loaded [0xD0, 0x15]).setV 0 0x0C).setV 1 0x08)) =
    some ([12, 13, 14, 15], [12, 15], 0, 0x202) := by decide
/-- DR-6: both edges clip. -/
theorem test_draw_clips :
    nextIs (fun t => (rowOn t 31, rowOn t 0, t.getV 15))
      (step (((((loaded [0xD0, 0x12, 0xFF, 0xFF]).setV 0 0x7E).setV 1 0x3F).setI 0x202).setV 15 9)) =
    some ([62, 63], [], 0) := by decide
/-- EX-1. -/
theorem test_skipKeyPressed :
    nextIs (·.pc) (step (((loadedExt [0xE5, 0x9E]).setV 5 0x0A).setKey 10 true)) = some 0x204 := by decide
/-- EX-3. -/
theorem test_skipKeyPressed_above_15 :
    faultIs (step ((loadedExt [0xE5, 0x9E]).setV 5 0x10)) = some .outOfBounds := by decide
/-- EX-4. -/
theorem test_skipKeyNotPressed : nextIs (·.pc) (step ((loadedExt [0xE5, 0xA1]).setV 5 0x0A)) = some 0x204 := by decide
/-- EX-5. -/
theorem test_getDelay : nextIs (·.getV 3) (step ((loadedExt [0xF3, 0x07]).setDt 0x3C)) = some 0x3C := by decide
/-- EX-6. -/
theorem test_waitKey_repeats : nextIs (fun t => (t.pc, t.getV 2)) (step ((loadedExt [0xF2, 0x0A]).setV 2 7)) =
    some (0x200, 7) := by decide
/-- EX-7. -/
theorem test_waitKey_least :
    nextIs (fun t => (t.getV 2, t.pc)) (step (((loadedExt [0xF2, 0x0A]).setKey 9 true).setKey 4 true)) =
    some (4, 0x202) := by decide
/-- EX-8. -/
theorem test_setDelay : nextIs (fun t => (t.dt, t.st)) (step ((loadedExt [0xF1, 0x15]).setV 1 0x3C)) =
    some (0x3C, 0) := by decide
/-- EX-9. -/
theorem test_setSound : nextIs (fun t => (t.dt, t.st)) (step ((loadedExt [0xF1, 0x18]).setV 1 0x05)) =
    some (0, 0x05) := by decide
/-- EX-11. -/
theorem test_setIndexFont : nextIs (·.i) (step ((loadedExt [0xF4, 0x29]).setV 4 0x1A)) = some 0x032 := by decide

/-! ### The fetch, and more of Draw -/

/-- FE-1: an odd PC. -/
theorem test_fetch_odd :
    nextIs (fun t => (t.getV 0, t.pc)) (step ((loaded [0x00, 0x60, 0x0C]).setPc 0x201)) = some (0x0C, 0x203) := by
  decide
/-- FE-2: no wrap at the end of memory. -/
theorem test_fetch_last :
    nextIs (fun t => (t.getV 0, t.pc)) (step (poke (poke ((loaded []).setPc 0xFFE) 0xFFE 0x60) 0xFFF 0x01)) =
    some (0x01, 0x1000) := by decide
/-- FE-3 and FE-4. -/
theorem test_fetch_past_memory :
    faultIs (step ((loaded []).setPc 0x1000)) = some .outOfBounds ∧
    faultIs (step ((loaded []).setPc 0xFFF)) = some .outOfBounds := by decide
/-- The paragraph after DE-25, and with EXT_IO false R102. -/
theorem test_unknown_word :
    faultIs (step (loaded [0x80, 0x14])) = some (.unknownOpcode 0x8014) ∧
    faultIs (step (loaded [0xF3, 0x29])) = some (.unknownOpcode 0xF329) := by decide
/-- DR-10: the byte is read before the height check. -/
theorem test_draw_reads_before_height :
    faultIs (step (((loaded [0xD0, 0x12]).setV 1 0x1F).setI 0xFFF)) = some .outOfBounds := by decide
/-- DR-13: the origin is VF's value from before the draw. -/
theorem test_draw_origin_vf :
    nextIs (fun t => (rowOn t 2, t.getV 15))
      (step ((((loaded [0xDF, 0x11, 0x80]).setV 15 5).setV 1 2).setI 0x202)) = some ([5], 0) := by decide
/-- DR-11, its first Draw: a collision beside a pixel turned on. -/
theorem test_draw_collision :
    nextIs (fun t => (rowOn t 0, t.getV 15))
      (step { (loaded [0xD0, 0x11, 0xC0]).setI 0x202 with fb := (loaded []).fb.set 0 0 true }) =
    some ([1], 1) := by decide

/-! ### Host operations -/

/-- R51, the font of R49: glyph 0's first bytes, glyph F's last, and the byte after. -/
theorem test_reset_memory :
    State.reset.byteAt 0 = 0xF0 ∧ State.reset.byteAt 1 = 0x90 ∧ State.reset.byteAt 79 = 0x80 ∧
    State.reset.byteAt 80 = 0 ∧ State.reset.byteAt 0xFFF = 0 := by decide
/-- WE-6: the two lengths at the edge. -/
theorem test_load_capacity :
    memSize - progBase = 3584 ∧ ¬ memSize < progBase + 3584 ∧ memSize < progBase + 3585 := by decide
/-- LD-3. -/
theorem test_load_nothing : (loaded []).run = .running ∧ (loaded []).pc = 0x200 ∧ (loaded []).mem = [] := by decide
/-- LD-6. -/
theorem test_advance_while_idle : hostStep (.advance 1) State.reset = .refused .advanceWhileIdle := rfl
/-- AD-2, the failing tick. -/
theorem test_failing_tick_is_undone :
    advance 1 (loaded [0x00, 0xEE]) = .answered (loaded [0x00, 0xEE]) (.err .stackUnderflow) := rfl
/-- TT-2 and TT-3. -/
theorem test_timers :
    ((tickTimers (((loaded []).setDt 5).setSt 1)).dt, (tickTimers (((loaded []).setDt 5).setSt 1)).st) = (4, 0) ∧
    (tickTimers (loaded [])).dt = 0 := by decide
/-- KY-1 and KY-3. -/
theorem test_keys :
    (stateOf (hostStep (.submitKey 3 true) State.reset)).keyDown 3 = true ∧
    (stateOf (hostStep (.submitKey 3 true) State.reset)).keyDown 4 = false ∧
    submitKey 16 true State.reset = .refused .keyIdAbove15 := ⟨by decide, by decide, rfl⟩
/-- FB-1: entry 5 + 64·3 = 197. -/
theorem test_readFb :
    (readFb { loaded [] with fb := (loaded []).fb.set 5 3 true })[197] = true ∧
    (readFb { loaded [] with fb := (loaded []).fb.set 5 3 true })[325] = false := by
  simp only [readFb, Vector.getElem_ofFn]
  decide
/-- R210: the codes, and UnknownOpcode's payload. -/
theorem test_fault_codes :
    Fault.code .outOfBounds = 1 ∧ Fault.code .capacityExceeded = 2 ∧ Fault.code .stackUnderflow = 3 ∧
    Fault.code (.unknownOpcode 0x8014) = 4 ∧ Fault.code .invalidRegister = 5 ∧ Fault.code .stackOverflow = 6 ∧
    Fault.payload (.unknownOpcode 0x8014) = some 0x8014 := by decide

/-! ### Every row of the table runs as the first instruction after reset -/

/-- The words are the `match` column with every operand 0; Return has an empty stack (CF-3). -/
theorem test_rows_run_after_reset :
    ([0x00E0, 0x1000, 0x2000, 0x3000, 0x4000, 0x5000, 0x6000, 0x7000, 0x9000, 0xA000, 0xD000, 0xE09E, 0xE0A1,
      0xF007, 0xF00A, 0xF015, 0xF018, 0xF029].all fun w =>
        (nextIs (fun _ => ()) (step (State.reset.withFetchWord 16 w))).isSome) = true ∧
    faultIs (step (State.reset.withFetchWord 16 0x00EE)) = some .stackUnderflow := by decide

/-! ### Witnesses: states and operands that meet an obligation's hypotheses, one theorem for each -/

/-- A loaded program's first word is the instruction the next tick fetches. -/
theorem fetches_loaded : Fetches (loaded [0x12, 0x00]) (.jump 0x200) := by
  refine ⟨?_, ?_, ?_⟩ <;> decide

theorem witness_DecodeOfEncodeIsTheInstruction :
    (Instr.jump 0xFFF).wellFormed false = true ∧ (Instr.getDelay 15).wellFormed true = true := by decide

theorem witness_EncodeOfDecodeIsTheWord :
    decodeWord false 0x1FFF = .ok (.jump 0xFFF) ∧ decodeWord true 0xFF29 = .ok (.setIndexFont 15) := by decide

theorem witness_LiteralDigitsAreRequired :
    fieldN1 0x00E0 = 0 ∧ fieldN1 0x0FFF = 0 ∧ fieldN1 0x5FF0 = 0x5 ∧ fieldN1 0x5FFF = 0x5 ∧
    fieldN1 0x9000 = 0x9 ∧ fieldN1 0x9001 = 0x9 := by decide

theorem witness_ExtIoAddsExactlySevenPatterns :
    fieldN1 0x8000 = 0x8 ∧ fieldN1 0xBFFF = 0xB ∧ fieldN1 0xC000 = 0xC ∧ fieldN1 0xE09E = 0xE ∧
    fieldN1 0xFFFF = 0xF ∧ (Instr.draw 0 0 0).profile = .base := by decide

/-- A mnemonic of each clause with the first number outside each field, and a form with the `I` of `LD I, addr`. -/
theorem witness_WrittenFormAssemblesBack :
    (Mnemonic.JP ∈ [Mnemonic.Jump, .Call, .SetIndex, .JP, .CALL] ∧ 0xFFF < 0x1000) ∧
    (Mnemonic.LD ∈ [Mnemonic.SkipEqVal, .SkipNeVal, .SetRegister, .AddRegister, .SE, .SNE, .LD, .ADD] ∧
      15 < 16 ∧ 0xFF < 0x100) ∧
    Mnemonic.SNE ∈ [Mnemonic.SkipEqReg, .SkipNeReg, .SE, .SNE] ∧ Mnemonic.DRW ∈ [Mnemonic.Draw, .DRW] ∧
    Mnemonic.WaitKey ∈ [Mnemonic.SkipKeyPressed, .SkipKeyNotPressed, .GetDelay, .WaitKey, .SetDelay, .SetSound,
      .SetIndexFont] ∧
    assemble .DRW [.reg 15, .reg 15, .num 15] = some (.draw 15 15 15) ∧
    assemble .LD [.index, .num 0xFFF] = some (.setIndex 0xFFF) := by decide

/-- ME-1 to ME-3. -/
theorem witness_ReadOfTwoBytesIsBigEndianAndChecked :
    0xFFE + 1 < 4096 ∧ 4096 ≤ 0xFFF + 1 ∧ memRead2 (loaded [0x12, 0x34]) 0x200 = .ok 0x1234 ∧
    memRead2 (loaded []) 0xFFE = .ok 0 ∧ memRead2 (loaded []) 0xFFF = .error .outOfBounds := by decide

/-- ME-4 and ME-5. -/
theorem witness_ReadOfOneByteIsChecked :
    0xFFF < 4096 ∧ 4096 ≤ 0x1000 ∧
    memRead1 (loaded []) 0xFFF = .ok 0 ∧ memRead1 (loaded []) 0x1000 = .error .outOfBounds := by decide

theorem witness_StepRunsTheDecodedInstruction :
    Fetches (loaded [0x12, 0x00]) (.jump 0x200) ∧
    ((loaded []).setPc 0xFFF).run = .running ∧ 0x0FFF ≤ ((loaded []).setPc 0xFFF).pc.toNat :=
  ⟨fetches_loaded, rfl, by decide⟩

/-- A bad word at 0x200, and the zeros at the last address a fetch can read from. -/
theorem witness_UnknownWordEndsTheAdvance :
    ((loaded [0x80, 0x14]).run = .running ∧ (loaded [0x80, 0x14]).pc.toNat ≤ 0x0FFE ∧
      decodeWord false (wordAtPc (loaded [0x80, 0x14])) =
        .error (.unknownOpcode (wordAtPc (loaded [0x80, 0x14])))) ∧
    (((loaded []).setPc 0xFFE).pc.toNat ≤ 0x0FFE ∧
      decodeWord false (wordAtPc ((loaded []).setPc 0xFFE)) =
        .error (.unknownOpcode (wordAtPc ((loaded []).setPc 0xFFE)))) := by decide

theorem witness_IdleCoreRefusesAdvance : State.reset.run = .idle := rfl

theorem witness_TickRaisesExactlyTheListedErrors :
    (loaded [0x00, 0xEE]).run = .running ∧ step (loaded [0x00, 0xEE]) = .fault .stackUnderflow := ⟨rfl, rfl⟩

theorem witness_InvalidRegisterIsNeverRaised :
    step (loaded [0x00, 0xEE]) = .fault .stackUnderflow ∧ (loaded [0x00, 0xEE]).params.stackLimit = none :=
  ⟨rfl, rfl⟩

theorem witness_RunningCoreRefusesNothing : step State.reset = .refused .advanceWhileIdle := rfl

/-- A tick of each kind, a failing tick, and a host operation that is answered. -/
theorem witness_PcChangesOnlyInTheListedWays :
    (∃ t, step (loaded [0x60, 0x0C]) = .next t) ∧ (∃ t, step (loaded [0x30, 0x00]) = .next t) ∧
    (∃ t, step (loaded [0x1F, 0xFF]) = .next t) ∧
    (∃ t, step ((loaded [0x00, 0xEE]).setStack [0x204]) = .next t) ∧
    (∃ t, step (loadedExt [0xF2, 0x0A]) = .next t) ∧
    step (loaded [0x80, 0x14]) = .fault (.unknownOpcode 0x8014) ∧
    ∃ t, hostStep (.load []) State.reset = .answered t .ok :=
  ⟨⟨_, rfl⟩, ⟨_, rfl⟩, ⟨_, rfl⟩, ⟨_, rfl⟩, ⟨_, rfl⟩, rfl, ⟨_, rfl⟩⟩

/-- CF-7. -/
theorem witness_JumpToItselfIsNoFault :
    Fetches (loaded [0x12, 0x00]) (.jump 0x200) ∧
    (loaded [0x12, 0x00]).pc.toNat = (0x200 : Addr12).toNat := ⟨fetches_loaded, by decide⟩

/-- A stack whose top lies in memory, one whose top lies past it (CF-10), and an empty one at a Return. -/
theorem witness_ReturnPopsTheStackIntoPc :
    ((loaded []).setStack [0x204]).stack = 0x204 :: [] ∧
    (((loaded []).setStack [0x1000]).stack = 0x1000 :: [] ∧ ((loaded []).setStack [0x1000]).run = .running ∧
      0x0FFF ≤ (0x1000 : Word).toNat) ∧
    (Fetches (loaded [0x00, 0xEE]) .ret ∧ (loaded [0x00, 0xEE]).stack = []) := by
  refine ⟨rfl, ⟨rfl, rfl, by decide⟩, ⟨rfl, by decide, by decide⟩, rfl⟩

/-- CF-6. -/
theorem witness_JumpSetsPc : (loaded [0x1F, 0xFF]).run = .running ∧ (0xFFF : Addr12) = 0xFFF := ⟨rfl, rfl⟩

/-- A core whose STACK_LIMIT is 2, at its first Call. -/
def limited : State := loadedWith { Params.hardware with stackLimit := some 2 } [0x24, 0x00]

/-- No limit; a limit not reached; CF-11, a limit reached at a Call. -/
theorem witness_CallPushesPcAndJumps :
    (loaded [0x24, 0x00]).params.stackLimit ≠ some (loaded [0x24, 0x00]).stack.length ∧
    (limited.setStack [0x204]).params.stackLimit ≠ some (limited.setStack [0x204]).stack.length ∧
    (limited.setStack [0x302, 0x204]).params.stackLimit = some (limited.setStack [0x302, 0x204]).stack.length ∧
    Fetches (limited.setStack [0x302, 0x204]) (.call 0x400) := by
  refine ⟨by decide, by decide, by decide, rfl, by decide, by decide⟩

/-- A Call of 0x202 right after it, where a Return stands. -/
theorem witness_ReturnResumesAfterItsCall :
    Fetches (loaded [0x22, 0x02, 0x00, 0xEE]) (.call 0x202) ∧
    ∃ t, step (loaded [0x22, 0x02, 0x00, 0xEE]) = .next t ∧ t.stack = t.stack ∧ Fetches t .ret := by
  refine ⟨⟨rfl, by decide, by decide⟩, _, rfl, rfl, rfl, ?_, ?_⟩ <;> decide

/-- SK-12, one cell further: a skip that leaves PC at 0xFFF. -/
theorem witness_ValueSkipsAddTwoWhenTheirConditionHolds :
    ((loaded []).setPc 0xFFD).run = .running ∧ ((loaded []).setPc 0xFFD).getV 0 = 0 ∧
    0x0FFF ≤ (((loaded []).setPc 0xFFD).pc + 2).toNat := by decide

/-- SK-7: x = y. -/
theorem witness_RegisterSkipsAddTwoWhenTheirConditionHolds : (4 : RegIdx) = 4 := rfl

/-- One of each skip, the last at the highest address. -/
theorem witness_SkipTickMovesPcByFourOrTwo :
    Fetches (loaded [0x3F, 0xFF]) (.skipEqVal 15 0xFF) ∧ Fetches (loaded [0x40, 0x00]) (.skipNeVal 0 0) ∧
    Fetches (loaded [0x5F, 0xF0]) (.skipEqReg 15 15) ∧
    Fetches (poke ((loaded []).setPc 0xFFE) 0xFFE 0x90) (.skipNeReg 0 0) := by
  refine ⟨⟨rfl, ?_, ?_⟩, ⟨rfl, ?_, ?_⟩, ⟨rfl, ?_, ?_⟩, ⟨rfl, ?_, ?_⟩⟩ <;> decide

theorem witness_AddRegisterWrapsAndLeavesVf : (14 : RegIdx) ≠ 15 := by decide

/-- FB-1's pixel and its neighbour. -/
theorem witness_DisplayDrawTogglesOnePixel : ((6 : Fin 64), (3 : Fin 32)) ≠ (5, 3) := by decide

/-- The last row of a readable sprite at 0xFFF; a pixel that goes from on to off, and none. -/
theorem witness_DrawTogglesExactlyTheSpritePixels :
    spriteReadable ((loaded []).setI 0xFFE) 0 2 ∧
    nextIs (fun t => t.fb.get 0 0) (exec (.draw 0 1 1) { loaded [] with fb := (loaded []).fb.set 0 0 true }) =
      some false ∧
    nextIs (fun t => t.fb) (exec (.draw 0 1 1) ((loaded []).setI 0x50)) = some (loaded []).fb := by
  refine ⟨?_, by decide, by decide⟩
  intro row h _
  have : row < 2 := h
  show 0xFFE + row < 4096
  omega

/-- DR-9 and DR-10. -/
theorem witness_DrawPastMemoryIsUndone :
    ¬ spriteReadable ((loaded [0xD0, 0x12]).setI 0xFFF) 0 2 ∧
    ¬ spriteReadable ((loaded [0xD0, 0x12]).setI 0xFFF) 31 2 ∧
    exec (.draw 0 1 2) ((loaded [0xD0, 0x12]).setI 0xFFF) = .fault .outOfBounds ∧
    Fetches ((loaded [0xD0, 0x12]).setI 0xFFF) (.draw 0 1 2) := by
  refine ⟨fun h => ?_, fun h => ?_, rfl, rfl, by decide, by decide⟩
  · exact absurd (h 1 (by decide) (.inr (by decide))) (by decide)
  · exact absurd (h 1 (by decide) (.inr (by decide))) (by decide)

/-- The literal reading of R172. -/
def mod64 : State := loadedWith { Params.hardware with originYMod := .mod64 } [0xD0, 0x11]

/-- DR-7, both readings. -/
theorem witness_OriginIsReducedBeforeDrawing :
    (loaded []).params.originYMod = .mod32 ∧ mod64.params.originYMod = .mod64 ∧
    32 ≤ originY (mod64.setV 1 0x20) 1 ∧ ∃ t, exec (.draw 0 1 1) (mod64.setV 1 0x20) = .next t :=
  ⟨rfl, rfl, by decide, _, rfl⟩

/-- A Draw, and the same Draw in the state it leaves. -/
theorem witness_DrawIsItsOwnInverse :
    ∃ s t u : State, exec (.draw 0 1 1) s = .next t ∧ u.fb = t.fb ∧ u.i = s.i ∧
      (∀ row, row < (1 : Nibble).toNat → u.byteAt (s.i.toNat + row) = s.byteAt (s.i.toNat + row)) ∧
      originX u 0 = originX s 0 ∧ originY u 1 = originY s 1 :=
  ⟨loaded [], _, _, rfl, rfl, rfl, fun _ _ => rfl, by decide, by decide⟩

/-- Key 15 and the value 16. -/
theorem witness_KeySkipsTestTheNamedKey :
    (((loaded []).setV 0 15).getV 0).toNat = (15 : Fin 16).val ∧ 15 < (((loaded []).setV 0 16).getV 0).toNat := by
  decide

/-- Key 0 with key 15, key 15 alone, and none at a WaitKey. -/
theorem witness_WaitKeyTakesTheLeastPressedKey :
    ((((loaded []).setKey 15 true).setKey 0 true).keyDown 0 = true) ∧
    (((loaded []).setKey 15 true).keyDown 15 = true ∧ ∀ j, j < 15 → ((loaded []).setKey 15 true).keyDown j = false) ∧
    ((∀ k, (loadedExt [0xF2, 0x0A]).keyDown k = false) ∧ Fetches (loadedExt [0xF2, 0x0A]) (.waitKey 2)) := by
  refine ⟨by decide, by decide, by decide, rfl, by decide, by decide⟩

theorem witness_InstructionsWriteOnlyTheirComponents :
    ∃ t, exec (.call 0x300) (loaded []) = .next t := ⟨_, rfl⟩

theorem witness_NothingWritesTheReservedRegion :
    (∃ t, step (loaded [0x12, 0x00]) = .next t) ∧ (∃ t, hostStep (.load [0x12]) State.reset = .answered t .ok) ∧
    0x1FF < 0x200 := ⟨⟨_, rfl⟩, ⟨_, rfl⟩, by decide⟩

/-- An ADVANCE with EXT_IO false, and ticks that write each timer. -/
theorem witness_AdvanceLeavesKeysAndTimers :
    (∃ t r, advance 1 (loaded [0x12, 0x00]) = .answered t r ∧ (loaded [0x12, 0x00]).params.extIo = false) ∧
    nextIs (fun t => decide (t.dt ≠ 0)) (step ((loadedExt [0xF1, 0x15]).setV 1 1)) = some true ∧
    nextIs (fun t => decide (t.st ≠ 0)) (step ((loadedExt [0xF1, 0x18]).setV 1 1)) = some true :=
  ⟨⟨_, _, rfl, rfl⟩, by decide, by decide⟩

/-- A tick, a LOAD that succeeds, and an operation that leaves Run. -/
theorem witness_RunOnlyGoesFromIdleToRunning :
    (∃ t, step (loaded [0x12, 0x00]) = .next t) ∧ (∃ t, hostStep (.load [0x12]) State.reset = .answered t .ok) ∧
    ∃ t, hostStep .tickTimers State.reset = .answered t .nothing := ⟨⟨_, rfl⟩, ⟨_, rfl⟩, ⟨_, rfl⟩⟩

/-- A running state with a program that meets the invariant. -/
theorem inv_loaded : Inv (loaded [0x12, 0x00]) where
  params := by decide
  mem := by decide
  pc := by decide
  stack := fun _ h => absurd (show _ ∈ [] from h) List.not_mem_nil
  index := by decide
  depth := fun _ h => by cases (show none = some _ from h)
  timers := fun _ => ⟨rfl, rfl⟩
  idle := fun h => by cases (show Run.running = .idle from h)

theorem witness_TickKeepsTheInvariant :
    Inv (loaded [0x12, 0x00]) ∧ ∃ t, step (loaded [0x12, 0x00]) = .next t := ⟨inv_loaded, _, rfl⟩

theorem witness_InvariantHoldsAfterConstruct : Params.hardware.wf = true := by decide

theorem witness_HostOperationsKeepTheInvariant :
    Inv (loaded [0x12, 0x00]) ∧ ∃ t, hostStep (.advance 1) (loaded [0x12, 0x00]) = .answered t .ok :=
  ⟨inv_loaded, _, rfl⟩

/-- CF-6 through the host: a reachable running state whose PC is 0xFFF. -/
theorem witness_PcNeverPassesFourKilobytesAndTwo :
    Params.hardware.wf = true ∧
    ∃ s, Reachable Params.hardware s ∧ s.run = .running ∧ 0x0FFE < s.pc.toNat := by
  refine ⟨by decide, (loaded [0x1F, 0xFF]).setPc 0xFFF, ?_, rfl, by decide⟩
  exact .host (s := loaded [0x1F, 0xFF]) (reply := .ok) (.advance 1)
    (.host (reply := .ok) (.load [0x1F, 0xFF]) .construct rfl) rfl

/-- A key pressed in one of two states; a tick that completes and one that fails. -/
theorem witness_KeysAndTimersAreInvisible :
    (loaded [0x12, 0x00]).params.extIo = false ∧
    SameButInputs (loaded [0x12, 0x00]) ((loaded [0x12, 0x00]).setKey 3 true) ∧
    (∃ t, step (loaded [0x12, 0x00]) = .next t) ∧ step (loaded [0x00, 0xEE]) = .fault .stackUnderflow :=
  ⟨rfl, ⟨(onlyWrites_setKey _ _ _).mono (by simp), rfl⟩, ⟨_, rfl⟩, rfl⟩

theorem witness_OnlyCallAndReturnSeeTheStack :
    (Instr.jump 0x300 ≠ .ret ∧ ∀ nnn, Instr.jump 0x300 ≠ .call nnn) ∧
    (∃ t, exec (.jump 0x300) (loaded []) = .next t) ∧
    exec (.draw 0 1 2) ((loaded []).setI 0xFFF) = .fault .outOfBounds :=
  ⟨⟨by simp, by simp⟩, ⟨_, rfl⟩, rfl⟩

/-- The same two bytes, written in either order. -/
theorem witness_CanonicalMemoriesThatReadAlikeAreEqual :
    Memory.wf Params.hardware (Memory.write Params.hardware (Memory.write Params.hardware [] 0x200 1) 0x201 2) ∧
    Memory.wf Params.hardware (Memory.write Params.hardware (Memory.write Params.hardware [] 0x201 2) 0x200 1) ∧
    ∀ a, Memory.read Params.hardware
        (Memory.write Params.hardware (Memory.write Params.hardware [] 0x200 1) 0x201 2) a =
      Memory.read Params.hardware
        (Memory.write Params.hardware (Memory.write Params.hardware [] 0x201 2) 0x200 1) a :=
  ⟨by decide, by decide, fun _ => rfl⟩

/-- The font's edges: its last byte, the byte after it, and, with a higher FONT_BASE, the byte before it. -/
theorem witness_ConstructGivesTheResetValues :
    Params.hardware.fontBase.toNat + 80 ≤ 80 ∧ 0x4F < ({ Params.hardware with fontBase := 0x50 } : Params).fontBase.toNat := by
  decide

/-- LD-1 and LD-2. -/
theorem witness_LoadCapacityIsAllOrNothing :
    (List.replicate 3584 (0 : Byte)).length ≤ 3584 ∧ 3584 < (List.replicate 3585 (0 : Byte)).length := by
  simp only [List.length_replicate]
  decide

/-- A program of two bytes, and the addresses about it. -/
theorem witness_LoadCopiesTheProgram :
    hostStep (.load [0x12, 0x00]) State.reset = .answered (loaded [0x12, 0x00]) .ok ∧
    1 < [(0x12 : Byte), 0x00].length ∧ 0x1FF < 0x200 ∧ 0x200 + [(0x12 : Byte), 0x00].length ≤ 0x202 :=
  ⟨rfl, by decide, by decide, by decide⟩

theorem witness_FirstTickAfterLoadRunsTheFirstWord :
    hostStep (.load [0x12, 0x00]) State.reset = .answered (loaded [0x12, 0x00]) .ok ∧
    decodeWord (loaded [0x12, 0x00]).params.extIo ((0x12 : Byte) ++ (0x00 : Byte)) = .ok (.jump 0x200) :=
  ⟨rfl, by decide⟩

/-- AD-1 and AD-2: no tick, a tick that completes, one that fails, and ADVANCEs that end in each. -/
theorem witness_AdvanceRunsTicksUntilTheFirstError :
    (loaded [0x12, 0x00]).run = .running ∧ (∃ t, step (loaded [0x12, 0x00]) = .next t) ∧
    step (loaded [0x00, 0xEE]) = .fault .stackUnderflow ∧
    (∃ t, advance 1 (loaded [0x12, 0x00]) = .answered t .ok) ∧
    advance 1 (loaded [0x00, 0xEE]) = .answered (loaded [0x00, 0xEE]) (.err .stackUnderflow) :=
  ⟨rfl, ⟨_, rfl⟩, rfl, ⟨_, rfl⟩, rfl⟩

/-- AD-3, with a TICK_TIMERS in between. -/
theorem witness_FailedAdvanceFailsAgain :
    advance 1 (loaded [0x00, 0xEE]) = .answered (loaded [0x00, 0xEE]) (.err .stackUnderflow) ∧
    (∀ bytes, HostOp.tickTimers ≠ .load bytes) ∧
    hostStep .tickTimers (loaded [0x00, 0xEE]) = .answered (tickTimers (loaded [0x00, 0xEE])) .nothing :=
  ⟨rfl, by simp, rfl⟩

/-- KY-3, the first key id that is refused, and another key than the one set. -/
theorem witness_SubmitKeySetsOneKey : 15 < 16 ∧ (14 : Fin 16) ≠ 15 := by decide

end Sys2Proof.Tests
end

section
/-! Proofs of the statements of 20_memory.md: the checked, big-endian read of two bytes. -/

namespace Sys2Proof.Proofs
open Sys2Proof Sys2Proof.Machine

/-- Settles O8: below the bound the read answers the word of the two bytes, whose value is `toNat_wordOfBytes`; from
the bound on it answers the error. -/
theorem readOfTwoBytesIsBigEndianAndChecked : Obligations.ReadOfTwoBytesIsBigEndianAndChecked := by
  intro s a
  constructor
  · intro hin
    exact ⟨_, memRead2_ok (by omega), toNat_wordOfBytes _ _⟩
  · intro hout
    exact memRead2_error (by omega)

end Sys2Proof.Proofs
end

section
/-! Proofs of the statements of 30_encoding.md: the fields of an instruction word. -/

namespace Sys2Proof.Proofs
open Sys2Proof Sys2Proof.Machine

/-- Settles O3, from the value law of each field. -/
theorem fieldsAreTheNumberedBits : Obligations.FieldsAreTheNumberedBits := by
  intro w
  exact ⟨toNat_fieldN1 w, toNat_fieldX w, toNat_fieldY w, toNat_fieldN w, toNat_fieldKK w, toNat_fieldNNN w⟩

end Sys2Proof.Proofs
end

section
/-! Proofs of the statements of 40_execution_cycle.md: what a tick does with the word it fetches, and what a tick that
fails does to the ADVANCE it belongs to. -/

namespace Sys2Proof.Proofs
open Sys2Proof Sys2Proof.Machine

/-- Only a running core raises an error (R126). -/
theorem run_of_step_fault {s : State} {f : Fault} (h : step s = .fault f) : s.run = .running := by
  cases hrun : s.run with
  | running => rfl
  | idle => rw [step_of_idle hrun] at h; cases h

/-- R124, R127: an ADVANCE whose first tick fails ends there, in the state before that tick, whatever its count. -/
theorem advance_succ_of_step_fault {s : State} {f : Fault} (h : step s = .fault f) (n : Nat) :
    advance (n + 1) s = .answered s (.err f) := by
  rw [advance_of_running (run_of_step_fault h), runTicks, h]

/-- Settles O10: the tick past a fetch is `step_of_fetches`, its PC is `toNat_pc_add_two`, and the failing fetch is
`step_of_fetch_error`. -/
theorem stepRunsTheDecodedInstruction : Obligations.StepRunsTheDecodedInstruction := by
  constructor
  · intro s i hf
    exact ⟨step_of_fetches hf, toNat_pc_add_two hf⟩
  · intro s hrun hpc
    exact step_of_fetch_error hrun hpc

/-- Settles O11: the tick fails at its decode, and so the ADVANCE fails at its first tick. -/
theorem unknownWordEndsTheAdvance : Obligations.UnknownWordEndsTheAdvance := by
  intro s hrun hpc hdec
  have hstep : step s = .fault (.unknownOpcode (wordAtPc s)) := step_of_decode_error hrun hpc hdec
  exact ⟨hstep, fun n => ⟨s, advance_succ_of_step_fault hstep n⟩⟩

end Sys2Proof.Proofs
end

section
/-! Proofs of the statements of 41_control_flow.md: ClearScreen's word and effect, and Jump's. -/

namespace Sys2Proof.Proofs
open Sys2Proof Sys2Proof.Machine

/-- R190: what the EXT_IO patterns decode to is an instruction of the EXT_IO profile. -/
theorem profile_of_decodeExtIo {w : Word} {i : Instr} (h : decodeExtIo w = some i) : i.profile = .extIo := by
  unfold decodeExtIo at h
  repeat' split at h
  all_goals cases h
  all_goals rfl

/-- R140: only 00E0 decodes to ClearScreen: no other base pattern answers it, and it is no EXT_IO instruction. -/
theorem eq_of_decodeWord_clearScreen {extIo : Bool} {w : Word} (h : decodeWord extIo w = .ok .clearScreen) :
    w = 0x00E0 := by
  have hcases : w = 0x00E0 ∨ (extIo = true ∧ decodeExtIo w = some .clearScreen) := by
    simpa using decodeWord_ok h
  obtain hw | ⟨-, hext⟩ := hcases
  · exact hw
  · exact absurd (profile_of_decodeExtIo hext) (by decide)

/-- Settles O18: the decoder's first test is 00E0, and no later one answers ClearScreen; what it writes is the cleared
framebuffer alone. -/
theorem clearScreenTurnsEveryPixelOff : Obligations.ClearScreenTurnsEveryPixelOff := by
  constructor
  · intro extIo w
    constructor
    · rintro rfl
      rfl
    · exact eq_of_decodeWord_clearScreen
  · intro s
    exact ⟨s.setFb Framebuffer.clear, rfl, Framebuffer.get_clear, onlyWrites_setFb s _⟩

/-- R142: the word 1nnn decodes to Jump, whatever EXT_IO is. -/
theorem decodeWord_formatNNN_jump (extIo : Bool) (nnn : Addr12) :
    decodeWord extIo (formatNNN 0x1 nnn) = .ok (.jump nnn) := by
  rw [decodeWord_of_major (fieldN1_formatNNN 0x1 nnn) (by decide), if_pos rfl, fieldNNN_formatNNN]

/-- Settles O20: the new PC is `addrOperand`, which keeps the address's value; so at 0xFFF the next fetch is
`step_of_fetch_error`. -/
theorem jumpSetsPc : Obligations.JumpSetsPc := by
  intro nnn s
  have hpc : (s.setPc (addrOperand nnn)).pc.toNat = nnn.toNat := toNat_addrOperand nnn
  refine ⟨fun extIo => decodeWord_formatNNN_jump extIo nnn, s.setPc (addrOperand nnn), rfl, hpc,
    onlyWrites_setPc s _, fun hrun htarget => ?_⟩
  have hpast : 0x0FFF ≤ (s.setPc (addrOperand nnn)).pc.toNat := by
    rw [hpc, htarget]
    decide
  exact step_of_fetch_error hrun hpast

end Sys2Proof.Proofs
end

section
/-! Proofs of the statements of 42_skips.md: the words of the value skips, and where they leave PC. -/

namespace Sys2Proof.Proofs
open Sys2Proof Sys2Proof.Machine

/-- R150: the word 3xkk decodes to SkipEqVal, whatever EXT_IO is. -/
theorem decodeWord_formatXKK_skipEqVal (extIo : Bool) (x : RegIdx) (kk : Byte) :
    decodeWord extIo (formatXKK 0x3 x kk) = .ok (.skipEqVal x kk) := by
  rw [decodeWord_of_major (fieldN1_formatXKK 0x3 x kk) (by decide), if_neg (by decide), if_neg (by decide),
    if_pos rfl, fieldX_formatXKK, fieldKK_formatXKK]

/-- R151: the word 4xkk decodes to SkipNeVal, whatever EXT_IO is. -/
theorem decodeWord_formatXKK_skipNeVal (extIo : Bool) (x : RegIdx) (kk : Byte) :
    decodeWord extIo (formatXKK 0x4 x kk) = .ok (.skipNeVal x kk) := by
  rw [decodeWord_of_major (fieldN1_formatXKK 0x4 x kk) (by decide), if_neg (by decide), if_neg (by decide),
    if_neg (by decide), if_pos rfl, fieldX_formatXKK, fieldKK_formatXKK]

/-- A skip on equality adds 2 to PC where the two bytes are equal. -/
theorem pc_skipIf_beq (s : State) (a b : Byte) : (skipIf s (a == b)).pc = if a = b then s.pc + 2 else s.pc := by
  simp only [pc_skipIf, beq_iff_eq]

/-- A skip on inequality adds 2 to PC where the two bytes differ. -/
theorem pc_skipIf_bne (s : State) (a b : Byte) : (skipIf s (a != b)).pc = if a = b then s.pc else s.pc + 2 := by
  simp only [pc_skipIf, bne_iff_ne, ite_not]

/-- Whether or not it skips, a skip leaves Run. -/
theorem run_skipIf (s : State) (b : Bool) : (skipIf s b).run = s.run :=
  onlyWrites_skipIf s b .run (by decide)

/-- Settles O23: each value skip is `skipIf` of its comparison, which writes PC alone; a running core stays running,
so past 0x0FFE the next fetch is `step_of_fetch_error`. -/
theorem valueSkipsAddTwoWhenTheirConditionHolds : Obligations.ValueSkipsAddTwoWhenTheirConditionHolds := by
  intro x kk s
  refine ⟨fun extIo => ⟨decodeWord_formatXKK_skipEqVal extIo x kk, decodeWord_formatXKK_skipNeVal extIo x kk⟩,
    ⟨skipIf s (s.getV x == kk), rfl, pc_skipIf_beq s _ _, onlyWrites_skipIf s _, fun hrun hpast => ?_⟩,
    ⟨skipIf s (s.getV x != kk), rfl, pc_skipIf_bne s _ _, onlyWrites_skipIf s _⟩⟩
  have hstill : (skipIf s (s.getV x == kk)).run = .running := (run_skipIf s _).trans hrun
  exact step_of_fetch_error hstill hpast

end Sys2Proof.Proofs
end

section
/-! Proofs of the statements of 43_register_ops.md: the word of SetIndex, and the address it leaves in I. -/

namespace Sys2Proof.Proofs
open Sys2Proof Sys2Proof.Machine

/-- R162: the word Annn decodes to SetIndex, whatever EXT_IO is: every test before it is for another major opcode. -/
theorem decodeWord_formatNNN_setIndex (extIo : Bool) (nnn : Addr12) :
    decodeWord extIo (formatNNN 0xA nnn) = .ok (.setIndex nnn) := by
  rw [decodeWord_of_major (fieldN1_formatNNN 0xA nnn) (by decide)]
  iterate 8 rw [if_neg (by simp)]
  rw [if_pos rfl, fieldNNN_formatNNN]

/-- R93, R162: a zero-extended address has its top four bits 0, as its value is below 4096. -/
theorem fieldN1_addrOperand (nnn : Addr12) : fieldN1 (addrOperand nnn) = 0 := by
  apply BitVec.eq_of_toNat_eq
  rw [toNat_fieldN1, toNat_addrOperand]
  exact Nat.div_eq_of_lt nnn.isLt

/-- Settles O28: the new I is `addrOperand`, which keeps the address's value and has its top four bits 0, and I is all
that SetIndex writes. -/
theorem setIndexWritesTheAddress : Obligations.SetIndexWritesTheAddress := by
  intro nnn s
  exact ⟨fun extIo => decodeWord_formatNNN_setIndex extIo nnn, s.setI (addrOperand nnn), rfl, toNat_addrOperand nnn,
    fieldN1_addrOperand nnn, onlyWrites_setI s _⟩

end Sys2Proof.Proofs
end

section
/-! Proofs of the statements of 44_draw.md: what DisplayDraw leaves in the framebuffer and what it reports. -/

namespace Sys2Proof.Proofs
open Sys2Proof Sys2Proof.Machine

/-- R170: the drawn pixel is its old value XOR `flip`. -/
@[simp] theorem get_displayDraw_same (f : Framebuffer) (px : Fin dispW) (py : Fin dispH) (flip : Bool) :
    (displayDraw f px py flip).1.get px py = (f.get px py ^^ flip) :=
  Framebuffer.get_set_same f px py _

/-- R170: every other pixel is left. -/
theorem get_displayDraw_of_ne (f : Framebuffer) {px x : Fin dispW} {py y : Fin dispH} (flip : Bool)
    (h : (x, y) ≠ (px, py)) : (displayDraw f px py flip).1.get x y = f.get x y :=
  Framebuffer.get_set_of_ne f _ h

/-- R170: the collision `old AND flip` is exactly a toggle from on to off. -/
theorem displayDraw_reports_iff (f : Framebuffer) (px : Fin dispW) (py : Fin dispH) (flip : Bool) :
    (displayDraw f px py flip).2 = true ↔
      f.get px py = true ∧ (displayDraw f px py flip).1.get px py = false := by
  rw [get_displayDraw_same]
  show (f.get px py && flip) = true ↔ _
  cases f.get px py <;> simp

/-- Settles O29, clause by clause: the pixel drawn, the pixels left, the collision reported. -/
theorem displayDrawTogglesOnePixel : Obligations.DisplayDrawTogglesOnePixel := by
  intro f px py flip
  exact ⟨get_displayDraw_same f px py flip, fun _ _ h => get_displayDraw_of_ne f flip h,
    displayDraw_reports_iff f px py flip⟩

end Sys2Proof.Proofs
end

section
/-! Proofs of the statements of 70_reset_and_hazards.md: which LOADs fit. -/

namespace Sys2Proof.Proofs
open Sys2Proof Sys2Proof.Machine

/-- R256: LOAD is refused in no state: it answers Ok, or an error. -/
theorem load_answered (bytes : List Byte) (s : State) : ∃ t r, load bytes s = .answered t r := by
  unfold load
  split
  · next f _ => exact ⟨s, .err f, rfl⟩
  · exact ⟨_, .ok, rfl⟩

/-- R254: the bytes fit in memory from 0x200 on exactly when there are at most 3584 of them. -/
theorem fits_iff_length_le (bytes : List Byte) : progBase + bytes.length ≤ memSize ↔ bytes.length ≤ 3584 := by
  simp only [progBase, memSize]
  omega

/-- Settles O51: LOAD answers, and of the two answers `load_cases` allows, the length rules one out. -/
theorem loadCapacityIsAllOrNothing : Obligations.LoadCapacityIsAllOrNothing := by
  intro bytes s
  obtain ⟨t, r, hload⟩ := load_answered bytes s
  have hfits := fits_iff_length_le bytes
  obtain ⟨hover, rfl, rfl⟩ | ⟨hroom, rfl, -⟩ := load_cases hload
  · exact ⟨fun hshort => absurd (hfits.mpr hshort) (Nat.not_le.mpr hover), fun _ => hload⟩
  · exact ⟨fun _ => ⟨t, hload⟩, fun hlong => absurd (hfits.mp hroom) (Nat.not_le.mpr hlong)⟩

end Sys2Proof.Proofs
end

section
/-! Proofs of the statements of 30_encoding.md and 45_ext_io.md: the decoder and the encoder are inverse to each other,
and which words are left over. -/

namespace Sys2Proof.Proofs
open Sys2Proof Sys2Proof.Machine

/-! ### Decoding an encoded instruction -/

/-- R143: the word 2nnn decodes to Call, whatever EXT_IO is. -/
theorem decodeWord_formatNNN_call (extIo : Bool) (nnn : Addr12) :
    decodeWord extIo (formatNNN 0x2 nnn) = .ok (.call nnn) := by
  rw [decodeWord_of_major (fieldN1_formatNNN 0x2 nnn) (by decide)]
  simp

/-- R152: the word 5xy0 decodes to SkipEqReg, whatever EXT_IO is. -/
theorem decodeWord_formatXYN_skipEqReg (extIo : Bool) (x y : RegIdx) :
    decodeWord extIo (formatXYN 0x5 x y 0) = .ok (.skipEqReg x y) := by
  rw [decodeWord_of_major (fieldN1_formatXYN 0x5 x y 0) (by decide)]
  simp

/-- R153: the word 9xy0 decodes to SkipNeReg, whatever EXT_IO is. -/
theorem decodeWord_formatXYN_skipNeReg (extIo : Bool) (x y : RegIdx) :
    decodeWord extIo (formatXYN 0x9 x y 0) = .ok (.skipNeReg x y) := by
  rw [decodeWord_of_major (fieldN1_formatXYN 0x9 x y 0) (by decide)]
  simp

/-- R160: the word 6xkk decodes to SetRegister, whatever EXT_IO is. -/
theorem decodeWord_formatXKK_setRegister (extIo : Bool) (x : RegIdx) (kk : Byte) :
    decodeWord extIo (formatXKK 0x6 x kk) = .ok (.setRegister x kk) := by
  rw [decodeWord_of_major (fieldN1_formatXKK 0x6 x kk) (by decide)]
  simp

/-- R161: the word 7xkk decodes to AddRegister, whatever EXT_IO is. -/
theorem decodeWord_formatXKK_addRegister (extIo : Bool) (x : RegIdx) (kk : Byte) :
    decodeWord extIo (formatXKK 0x7 x kk) = .ok (.addRegister x kk) := by
  rw [decodeWord_of_major (fieldN1_formatXKK 0x7 x kk) (by decide)]
  simp

/-- R174: the word Dxyn decodes to Draw, whatever EXT_IO is. -/
theorem decodeWord_formatXYN_draw (extIo : Bool) (x y : RegIdx) (n : Nibble) :
    decodeWord extIo (formatXYN 0xD x y n) = .ok (.draw x y n) := by
  rw [decodeWord_of_major (fieldN1_formatXYN 0xD x y n) (by decide)]
  simp

/-- R102: under the major opcodes E and F the decoder is that of the profile, for a word the profile knows. -/
theorem decodeWord_of_decodeExtIo {w : Word} {i : Instr} (hop : fieldN1 w = 0xE ∨ fieldN1 w = 0xF)
    (hi : decodeExtIo w = some i) : decodeWord true w = .ok i := by
  obtain hop | hop := hop
  · rw [decodeWord_of_major hop (by decide), hi]
    simp
  · rw [decodeWord_of_major hop (by decide), hi]
    simp

/-- R190: an encoded instruction of the EXT_IO profile matches its own pattern. -/
theorem decodeExtIo_encode {i : Instr} (h : i.profile = .extIo) : decodeExtIo (encode i) = some i := by
  rw [decodeExtIo_eq]
  cases i with
  | skipKeyPressed | skipKeyNotPressed | getDelay | waitKey | setDelay | setSound | setIndexFont => simp [encode]
  | _ => cases h

/-- R190: an encoded instruction of the EXT_IO profile has the major opcode E or F. -/
theorem fieldN1_encode_of_extIo {i : Instr} (h : i.profile = .extIo) :
    fieldN1 (encode i) = 0xE ∨ fieldN1 (encode i) = 0xF := by
  cases i with
  | skipKeyPressed | skipKeyNotPressed | getDelay | waitKey | setDelay | setSound | setIndexFont => simp [encode]
  | _ => cases h

/-- R94: an encoded instruction of the base set decodes back, whatever EXT_IO is. -/
theorem decodeWord_encode_of_base (extIo : Bool) {i : Instr} (h : i.profile = .base) :
    decodeWord extIo (encode i) = .ok i := by
  cases i with
  | clearScreen => rfl
  | ret => rfl
  | jump nnn => exact decodeWord_formatNNN_jump extIo nnn
  | call nnn => exact decodeWord_formatNNN_call extIo nnn
  | skipEqVal x kk => exact decodeWord_formatXKK_skipEqVal extIo x kk
  | skipNeVal x kk => exact decodeWord_formatXKK_skipNeVal extIo x kk
  | skipEqReg x y => exact decodeWord_formatXYN_skipEqReg extIo x y
  | setRegister x kk => exact decodeWord_formatXKK_setRegister extIo x kk
  | addRegister x kk => exact decodeWord_formatXKK_addRegister extIo x kk
  | skipNeReg x y => exact decodeWord_formatXYN_skipNeReg extIo x y
  | setIndex nnn => exact decodeWord_formatNNN_setIndex extIo nnn
  | draw x y n => exact decodeWord_formatXYN_draw extIo x y n
  | _ => cases h

/-- R102: with EXT_IO false only the base set is well-formed. -/
theorem wellFormed_iff {extIo : Bool} {i : Instr} :
    i.wellFormed extIo = true ↔ i.profile = .base ∨ (i.profile = .extIo ∧ extIo = true) := by
  unfold Instr.wellFormed
  cases i.profile <;> simp

/-- R94, R190: decoding gives an encoded well-formed instruction back. -/
theorem decodeWord_encode {extIo : Bool} {i : Instr} (h : i.wellFormed extIo = true) :
    decodeWord extIo (encode i) = .ok i := by
  obtain hbase | ⟨hext, rfl⟩ := wellFormed_iff.mp h
  · exact decodeWord_encode_of_base extIo hbase
  · exact decodeWord_of_decodeExtIo (fieldN1_encode_of_extIo hext) (decodeExtIo_encode hext)

/-- R66: the two bytes memory holds are read back as the one word. -/
theorem decodeBytes_encodeBytes {extIo : Bool} {i : Instr} (h : i.wellFormed extIo = true) (rest : List Byte) :
    decodeBytes extIo (encodeBytes i ++ rest) = .ok (i, rest) := by
  simp only [encodeBytes, List.cons_append, List.nil_append, decodeBytes, wordOfBytes_bytes, decodeWord_encode h]

/-- Settles O1: on words by the format of each instruction, on bytes because a word is its two bytes. -/
theorem decodeOfEncodeIsTheInstruction : Obligations.DecodeOfEncodeIsTheInstruction := by
  intro extIo i h
  exact ⟨decodeWord_encode h, decodeBytes_encodeBytes h⟩

/-! ### Encoding a decoded word -/

/-- A word of a known major opcode, from its address. -/
theorem formatNNN_of_major {w : Word} {op : Nibble} (h : fieldN1 w = op) : formatNNN op (fieldNNN w) = w := by
  rw [← h, formatNNN_fields]

/-- A word of a known major opcode, from its register index and its low byte. -/
theorem formatXKK_of_major {w : Word} {op : Nibble} (h : fieldN1 w = op) :
    formatXKK op (fieldX w) (fieldKK w) = w := by
  rw [← h, formatXKK_fields]

/-- A word of a known major opcode, from its three lower nibbles. -/
theorem formatXYN_of_major {w : Word} {op : Nibble} (h : fieldN1 w = op) :
    formatXYN op (fieldX w) (fieldY w) (fieldN w) = w := by
  rw [← h, formatXYN_fields]

/-- R190: a word one of the seven patterns matches is the encoding of the pattern's instruction. -/
theorem encode_of_decodeExtIo {w : Word} {i : Instr} (h : decodeExtIo w = some i) : encode i = w := by
  have hword : ∀ {op : Nibble} {kk : Byte}, fieldN1 w = op ∧ fieldKK w = kk → formatXKK op (fieldX w) kk = w := by
    rintro op kk ⟨hop, rfl⟩
    exact formatXKK_of_major hop
  rw [decodeExtIo_eq] at h
  repeat' split at h
  all_goals cases h
  all_goals exact hword ‹_›

/-- R94: a word that decodes is the encoding of what it decodes to. -/
theorem encode_of_decodeWord {extIo : Bool} {w : Word} {i : Instr} (h : decodeWord extIo w = .ok i) :
    encode i = w := by
  obtain ⟨rfl, rfl⟩ | ⟨rfl, rfl⟩ | ⟨hop, rfl⟩ | ⟨hop, rfl⟩ | ⟨hop, rfl⟩ | ⟨hop, rfl⟩ | ⟨⟨hop, hn⟩, rfl⟩ |
    ⟨⟨hop, hn⟩, rfl⟩ | ⟨hop, rfl⟩ | ⟨hop, rfl⟩ | ⟨hop, rfl⟩ | ⟨hop, rfl⟩ | ⟨-, hext⟩ := decodeWord_ok h
  · rfl
  · rfl
  · exact formatNNN_of_major hop
  · exact formatNNN_of_major hop
  · exact formatXKK_of_major hop
  · exact formatXKK_of_major hop
  · rw [encode, ← hn, formatXYN_of_major hop]
  · rw [encode, ← hn, formatXYN_of_major hop]
  · exact formatXKK_of_major hop
  · exact formatXKK_of_major hop
  · exact formatNNN_of_major hop
  · exact formatXYN_of_major hop
  · exact encode_of_decodeExtIo hext

/-- R102: what decodes belongs to the core's profile: the seven patterns are tried only with EXT_IO true. -/
theorem wellFormed_of_decodeWord {extIo : Bool} {w : Word} {i : Instr} (h : decodeWord extIo w = .ok i) :
    i.wellFormed extIo = true := by
  obtain ⟨-, rfl⟩ | ⟨-, rfl⟩ | ⟨-, rfl⟩ | ⟨-, rfl⟩ | ⟨-, rfl⟩ | ⟨-, rfl⟩ | ⟨-, rfl⟩ | ⟨-, rfl⟩ | ⟨-, rfl⟩ |
    ⟨-, rfl⟩ | ⟨-, rfl⟩ | ⟨-, rfl⟩ | ⟨hon, hext⟩ := decodeWord_ok h
  iterate 12 next => rfl
  · exact wellFormed_iff.mpr (.inr ⟨profile_of_decodeExtIo hext, hon⟩)

/-- Settles O2, pattern by pattern. -/
theorem encodeOfDecodeIsTheWord : Obligations.EncodeOfDecodeIsTheWord := by
  intro extIo w i h
  exact ⟨encode_of_decodeWord h, wellFormed_of_decodeWord h⟩

/-- R94, R102: the decoder, said once: a word decodes to exactly the well-formed instruction it encodes. -/
theorem decodeWord_eq_ok_iff {extIo : Bool} {w : Word} {i : Instr} :
    decodeWord extIo w = .ok i ↔ encode i = w ∧ i.wellFormed extIo = true := by
  constructor
  · intro h
    exact ⟨encode_of_decodeWord h, wellFormed_of_decodeWord h⟩
  · rintro ⟨rfl, h⟩
    exact decodeWord_encode h

/-! ### The words that do not decode -/

/-- R190: no pattern of the profile has a major opcode other than E and F. -/
theorem decodeExtIo_of_major {w : Word} {op : Nibble} (h : fieldN1 w = op) (hop : op ≠ 0xE ∧ op ≠ 0xF) :
    decodeExtIo w = none := by
  simp only [decodeExtIo_eq, h, hop, false_and, if_false]

/-- Settles O4: past its own tests such a word meets the seven patterns, which have other major opcodes. -/
theorem literalDigitsAreRequired : Obligations.LiteralDigitsAreRequired := by
  intro extIo w
  refine ⟨fun hop => ?_, fun hop => ?_, fun hop => ?_⟩
  · simp [decodeWord, hop, decodeExtIo_of_major hop (by decide)]
  · rw [decodeWord_of_major hop (by decide), decodeExtIo_of_major hop (by decide)]
    simp
  · rw [decodeWord_of_major hop (by decide), decodeExtIo_of_major hop (by decide)]
    simp

/-- R101: the major opcodes 8, B and C have no row. -/
theorem decodeWord_of_unused_major (extIo : Bool) {w : Word}
    (h : fieldN1 w = 0x8 ∨ fieldN1 w = 0xB ∨ fieldN1 w = 0xC) : decodeWord extIo w = .error (.unknownOpcode w) := by
  obtain hop | hop | hop := h
  all_goals
    rw [decodeWord_of_major hop (by decide), decodeExtIo_of_major hop (by decide)]
    simp

/-- R102: with EXT_IO false the major opcodes E and F have no row. -/
theorem decodeWord_false_of_extIo_major {w : Word} (h : fieldN1 w = 0xE ∨ fieldN1 w = 0xF) :
    decodeWord false w = .error (.unknownOpcode w) := by
  obtain hop | hop := h
  all_goals
    rw [decodeWord_of_major hop (by decide)]
    simp

/-- R102: the base set decodes the same either way. -/
theorem decodeWord_base_iff {i : Instr} (h : i.profile = .base) (w : Word) :
    decodeWord true w = .ok i ↔ decodeWord false w = .ok i := by
  simp only [decodeWord_eq_ok_iff, wellFormed_iff.mpr (.inl h)]

/-- R190: a word of format XFF is the one its mask 0xF0FF and its register field give. -/
theorem formatXKK_eq_iff {op : Nibble} {x : RegIdx} {kk : Byte} {w : Word} :
    formatXKK op x kk = w ↔ w &&& 0xF0FF = formatXKK op 0 kk ∧ x = fieldX w := by
  rw [mask_F0FF]
  constructor
  · rintro rfl
    simp
  · rintro ⟨⟨hop, rfl⟩, rfl⟩
    exact formatXKK_of_major hop

/-- R190: with EXT_IO true an instruction of format XFF decodes exactly from its pattern under mask 0xF0FF. -/
theorem decodeWord_true_iff_pattern {i : Instr} {op : Nibble} {x : RegIdx} {kk : Byte} (w : Word)
    (hword : encode i = formatXKK op x kk) (hprofile : i.profile = .extIo) :
    decodeWord true w = .ok i ↔ w &&& 0xF0FF = formatXKK op 0 kk ∧ x = fieldX w := by
  rw [decodeWord_eq_ok_iff, hword, formatXKK_eq_iff]
  exact and_iff_left (wellFormed_iff.mpr (.inr ⟨hprofile, rfl⟩))

/-- Settles O5: the refusals by major opcode, the rest from `decodeWord_eq_ok_iff`. -/
theorem extIoAddsExactlySevenPatterns : Obligations.ExtIoAddsExactlySevenPatterns := by
  intro w
  exact ⟨fun extIo h => decodeWord_of_unused_major extIo h, decodeWord_false_of_extIo_major,
    fun _ _ h => decodeWord_error h, fun _ h => decodeWord_base_iff h w,
    fun _ => decodeWord_true_iff_pattern (op := 0xE) (kk := 0x9E) w rfl rfl,
    fun _ => decodeWord_true_iff_pattern (op := 0xE) (kk := 0xA1) w rfl rfl,
    fun _ => decodeWord_true_iff_pattern (op := 0xF) (kk := 0x07) w rfl rfl,
    fun _ => decodeWord_true_iff_pattern (op := 0xF) (kk := 0x0A) w rfl rfl,
    fun _ => decodeWord_true_iff_pattern (op := 0xF) (kk := 0x15) w rfl rfl,
    fun _ => decodeWord_true_iff_pattern (op := 0xF) (kk := 0x18) w rfl rfl,
    fun _ => decodeWord_true_iff_pattern (op := 0xF) (kk := 0x29) w rfl rfl⟩

/-- Settles O6: the decoder evaluated on each of the ten words. -/
theorem writtenOutWordsDecode : Obligations.WrittenOutWordsDecode := by
  unfold Obligations.WrittenOutWordsDecode
  decide

/-! ### The assembler -/

/-- R104: an operand outside the address field is refused. -/
theorem asmNNN_eq_none {f : Addr12 → Instr} {a : Nat} (h : 0xFFF < a) : asmNNN f a = none := by
  simp [asmNNN, asField_eq_none.mpr (show 2 ^ 12 ≤ a from h)]

/-- R104: a register or an immediate outside its field is refused. -/
theorem asmXKK_eq_none {f : RegIdx → Byte → Instr} {x k : Nat} (h : 15 < x ∨ 0xFF < k) : asmXKK f x k = none := by
  obtain hx | hk := h
  · simp [asmXKK, asField_eq_none.mpr (show 2 ^ 4 ≤ x from hx)]
  · simp [asmXKK, asField_eq_none.mpr (show 2 ^ 8 ≤ k from hk)]

/-- R104: a register outside its field is refused, the first or the second. -/
theorem asmXY_eq_none {f : RegIdx → RegIdx → Instr} {x y : Nat} (h : 15 < x ∨ 15 < y) : asmXY f x y = none := by
  obtain hx | hy := h
  · simp [asmXY, asField_eq_none.mpr (show 2 ^ 4 ≤ x from hx)]
  · simp [asmXY, asField_eq_none.mpr (show 2 ^ 4 ≤ y from hy)]

/-- R104: a register or a row count outside its field is refused. -/
theorem asmXYN_eq_none {f : RegIdx → RegIdx → Nibble → Instr} {x y n : Nat} (h : 15 < x ∨ 15 < y ∨ 15 < n) :
    asmXYN f x y n = none := by
  obtain hx | hy | hn := h
  · simp [asmXYN, asField_eq_none.mpr (show 2 ^ 4 ≤ x from hx)]
  · simp [asmXYN, asField_eq_none.mpr (show 2 ^ 4 ≤ y from hy)]
  · simp [asmXYN, asField_eq_none.mpr (show 2 ^ 4 ≤ n from hn)]

/-- R104: a register outside its field is refused. -/
theorem asmX_eq_none {f : RegIdx → Instr} {x : Nat} (h : 15 < x) : asmX f x = none := by
  simp [asmX, asField_eq_none.mpr (show 2 ^ 4 ≤ x from h)]

/-- R103: the form an instruction is listed as assembles to it: every field fits itself. -/
theorem assemble_formOf (i : Instr) : assemble (formOf i).1 (formOf i).2 = some i := by
  cases i with
  | clearScreen | ret => rfl
  | jump | call | setIndex => exact asmNNN_eq_some.mpr ⟨_, rfl, rfl⟩
  | skipEqVal | skipNeVal | setRegister | addRegister => exact asmXKK_eq_some.mpr ⟨_, _, rfl, rfl, rfl⟩
  | skipEqReg | skipNeReg => exact asmXY_eq_some.mpr ⟨_, _, rfl, rfl, rfl⟩
  | draw => exact asmXYN_eq_some.mpr ⟨_, _, _, rfl, rfl, rfl, rfl⟩
  | skipKeyPressed | skipKeyNotPressed | getDelay | waitKey | setDelay | setSound | setIndexFont =>
    exact asmX_eq_some.mpr ⟨_, rfl, rfl⟩

/-- R104: what the assembler accepts it takes as written, after the `I` of `LD I, addr`. -/
theorem operands_of_assemble {m : Mnemonic} {ops : List AsmOperand} {i : Instr} (h : assemble m ops = some i) :
    ops = (formOf i).2 ∨ (m = .LD ∧ ops = .index :: (formOf i).2) := by
  unfold assemble at h
  split at h
  case h_1 | h_2 | h_20 | h_21 => cases h; exact .inl rfl
  case h_3 | h_4 | h_11 | h_22 | h_23 => obtain ⟨_, rfl, rfl⟩ := asmNNN_eq_some.mp h; exact .inl rfl
  case h_5 | h_6 | h_9 | h_10 | h_24 | h_26 | h_28 | h_30 =>
    obtain ⟨_, _, rfl, rfl, rfl⟩ := asmXKK_eq_some.mp h; exact .inl rfl
  case h_7 | h_8 | h_25 | h_27 => obtain ⟨_, _, rfl, rfl, rfl⟩ := asmXY_eq_some.mp h; exact .inl rfl
  case h_12 | h_31 => obtain ⟨_, _, _, rfl, rfl, rfl, rfl⟩ := asmXYN_eq_some.mp h; exact .inl rfl
  case h_13 | h_14 | h_15 | h_16 | h_17 | h_18 | h_19 => obtain ⟨_, rfl, rfl⟩ := asmX_eq_some.mp h; exact .inl rfl
  case h_29 => obtain ⟨_, rfl, rfl⟩ := asmNNN_eq_some.mp h; exact .inr ⟨rfl, rfl⟩
  case h_32 => cases h

/-- Settles O7: each refusal is its format's, under whichever of its mnemonics. -/
theorem writtenFormAssemblesBack : Obligations.WrittenFormAssemblesBack := by
  refine ⟨assemble_formOf, fun m hm a ha => ?_, fun a ha => asmNNN_eq_none ha, fun m hm x kk hxk => ?_,
    fun m hm x y hxy => ?_, fun m hm x y n hxyn => ?_, fun m hm x hx => ?_, fun m ops i => operands_of_assemble⟩
  · fin_cases hm <;> exact asmNNN_eq_none ha
  · fin_cases hm <;> exact asmXKK_eq_none hxk
  · fin_cases hm <;> exact asmXY_eq_none hxy
  · fin_cases hm <;> exact asmXYN_eq_none hxyn
  · fin_cases hm <;> exact asmX_eq_none hx

end Sys2Proof.Proofs
end

section
/-! Proofs of the statements of 20_memory.md: the checked read of one byte, and the canonical form of the model's own
memory. -/

namespace Sys2Proof.Proofs
open Sys2Proof Sys2Proof.Machine

/-- Settles O9, by the bound that `memRead1` tests. -/
theorem readOfOneByteIsChecked : Obligations.ReadOfOneByteIsChecked := by
  intro s a
  constructor
  · intro hin
    exact if_neg (Nat.not_le.mpr hin)
  · intro hout
    exact if_pos hout

/-- With the addresses rising, an entry is listed exactly when it is the one its address looks up. -/
theorem mem_iff_lookup {m : Memory} (hm : m.Pairwise fun c d => c.1 < d.1) (c : Host.Cell) :
    c ∈ m ↔ Memory.lookup m c.1 = some c.2 := by
  induction m with
  | nil => simp [Memory.lookup]
  | cons d m ih =>
    obtain ⟨hd, hm'⟩ := List.pairwise_cons.mp hm
    rw [Memory.lookup, List.mem_cons, ih hm']
    by_cases hc : d.1 = c.1
    · have hnot : Memory.lookup m c.1 ≠ some c.2 := fun h =>
        absurd (hd c ((ih hm').mpr h)) (by omega)
      simp [hc, hnot, Prod.ext_iff, eq_comm]
    · have hne : c ≠ d := fun e => hc (by rw [e])
      simp [hc, hne]

/-- A canonical memory lists no byte that CONSTRUCT left. -/
theorem lookup_ne_constructByte {p : Params} {m : Memory} (hm : Memory.wf p m) (a : Nat) :
    Memory.lookup m a ≠ some (constructByte p a) := by
  intro h
  exact (hm.2 _ ((mem_iff_lookup hm.1 (a, constructByte p a)).mpr h)).2 rfl

/-- So what a canonical memory lists at an address is what it reads there, where that is not CONSTRUCT's byte. -/
theorem lookup_eq_some_iff {p : Params} {m : Memory} (hm : Memory.wf p m) {a : Nat} {b : Byte} :
    Memory.lookup m a = some b ↔ Memory.read p m a = b ∧ b ≠ constructByte p a := by
  have hne := lookup_ne_constructByte hm a
  unfold Memory.read
  cases hl : Memory.lookup m a with
  | none => simp [eq_comm]
  | some c =>
    rw [hl] at hne
    simp only [Option.getD_some, Option.some.injEq]
    constructor
    · rintro rfl
      exact ⟨rfl, fun e => hne (congrArg some e)⟩
    · exact And.left

/-- Settles O49: two canonical memories that read alike list the same entries, in the one order of their addresses. -/
theorem canonicalMemoriesThatReadAlikeAreEqual : Obligations.CanonicalMemoriesThatReadAlikeAreEqual := by
  intro p m m' hm hm' hread
  have hmem : ∀ c : Host.Cell, c ∈ m ↔ c ∈ m' := fun c => by
    rw [mem_iff_lookup hm.1, mem_iff_lookup hm'.1, lookup_eq_some_iff hm, lookup_eq_some_iff hm', hread]
  have : Std.Irrefl fun c d : Host.Cell => c.1 < d.1 := ⟨fun c => Nat.lt_irrefl c.1⟩
  have : Std.Antisymm fun c d : Host.Cell => c.1 < d.1 := ⟨fun c d h h' => absurd h (Nat.lt_asymm h')⟩
  exact hm.1.eq_of_mem_iff hm'.1 hmem

end Sys2Proof.Proofs
end

section
/-! Proofs of the statements of 10_state.md and 60_exceptions.md about every instruction: what each may write, and what
none can see. -/

namespace Sys2Proof.Proofs
open Sys2Proof Sys2Proof.Machine

/-! ### What an instruction writes -/

/-- R141, R143: replacing the stack and then PC writes those two alone. -/
theorem onlyWrites_setStack_setPc (s : State) (k : List Word) (a : Word) :
    OnlyWrites [.pc, .stack] s ((s.setStack k).setPc a) :=
  ((onlyWrites_setStack s k).trans (onlyWrites_setPc _ a)).mono (by simp)

/-- R174, R176: Draw's two writes. -/
theorem onlyWrites_setFb_setV (s : State) (f : Framebuffer) (b : Byte) :
    OnlyWrites [.fb, .v vf] s ((s.setFb f).setV vf b) :=
  (onlyWrites_setFb s f).trans (onlyWrites_setV _ vf b)

/-- The frame of every instruction, case by case. -/
theorem onlyWrites_of_executes {i : Instr} {s t : State} (h : Executes s i t) : OnlyWrites (writesOf i) s t := by
  cases h with
  | clearScreen => exact onlyWrites_setFb s _
  | ret | call => exact onlyWrites_setStack_setPc s _ _
  | jump => exact onlyWrites_setPc s _
  | skipEqVal | skipNeVal | skipEqReg | skipNeReg | skipKeyPressed | skipKeyNotPressed => exact onlyWrites_skipIf s _
  | setRegister | addRegister | getDelay => exact onlyWrites_setV s _ _
  | setIndex | setIndexFont => exact onlyWrites_setI s _
  | draw => exact onlyWrites_setFb_setV s _ _
  | waitKeyPressed => exact (onlyWrites_setV s _ _).mono (by simp [writesOf])
  | waitKeyAgain => exact (onlyWrites_setPc s _).mono (by simp [writesOf])
  | setDelay => exact onlyWrites_setDt s _
  | setSound => exact onlyWrites_setSt s _

/-- Settles O39, from the cases an instruction that completes can be in. -/
theorem instructionsWriteOnlyTheirComponents : Obligations.InstructionsWriteOnlyTheirComponents := by
  intro i s t h
  exact onlyWrites_of_executes (executes_of_next h)

/-- R40: the stack after an instruction: as it was, with PC pushed below the limit, or popped. -/
theorem stack_of_executes {i : Instr} {s t : State} (h : Executes s i t) :
    t.stack = s.stack ∨ (t.stack = s.pc :: s.stack ∧ s.params.stackLimit ≠ some s.stack.length) ∨
      ∃ top, s.stack = top :: t.stack := by
  have hw := onlyWrites_of_executes h .stack
  cases h with
  | ret top rest hs => exact .inr (.inr ⟨top, hs⟩)
  | call nnn hfree => exact .inr (.inl ⟨rfl, hfree⟩)
  | _ => exact .inl (hw (by simp [writesOf]))

/-- R34: I after an instruction: as it was, a zero-extended address, or a glyph's. -/
theorem index_of_executes {i : Instr} {s t : State} (h : Executes s i t) :
    t.i = s.i ∨ (∃ nnn, t.i = addrOperand nnn) ∨ ∃ x, t.i = glyphOperand s x := by
  have hw := onlyWrites_of_executes h .i
  cases h with
  | setIndex nnn => exact .inr (.inl ⟨nnn, rfl⟩)
  | setIndexFont x => exact .inr (.inr ⟨x, rfl⟩)
  | _ => exact .inl (hw (by simp [writesOf]))

/-- R223: only SetDelay writes DT. -/
theorem dt_of_executes {i : Instr} {s t : State} (h : Executes s i t) :
    t.dt = s.dt ∨ ∃ x, i = .setDelay x := by
  have hw := onlyWrites_of_executes h .dt
  cases h with
  | setDelay x => exact .inr ⟨x, rfl⟩
  | _ => exact .inl (hw (by simp [writesOf]))

/-- R223: only SetSound writes ST. -/
theorem st_of_executes {i : Instr} {s t : State} (h : Executes s i t) :
    t.st = s.st ∨ ∃ x, i = .setSound x := by
  have hw := onlyWrites_of_executes h .st
  cases h with
  | setSound x => exact .inr ⟨x, rfl⟩
  | _ => exact .inl (hw (by simp [writesOf]))

/-! ### What an instruction does not see -/

/-- A change of the state an instruction completes in. -/
def mapNext (f : State → State) : Result → Result
  | .next t => .next (f t)
  | .fault e => .fault e
  | .refused r => .refused r

/-- Such a change touches no error. -/
theorem mapNext_eq_fault_iff {f : State → State} {r : Result} {e : Fault} :
    mapNext f r = .fault e ↔ r = .fault e := by
  cases r <;> simp [mapNext]

/-- R174: a change that no part of Draw sees goes through it. -/
theorem execDraw_comm {f : State → State} {s : State} {x y : RegIdx} (n : Nibble)
    (hi : (f s).i = s.i) (hmem : (f s).mem = s.mem) (hparams : (f s).params = s.params)
    (hfb : (f s).fb = s.fb) (hx : (f s).getV x = s.getV x) (hy : (f s).getV y = s.getV y)
    (hwrite : ∀ g b, f ((s.setFb g).setV vf b) = ((f s).setFb g).setV vf b) :
    execDraw x y n (f s) = mapNext f (execDraw x y n s) := by
  have hrows : drawRows (f s) (originX (f s) x) (originY (f s) y) (List.range n.toNat) ⟨(f s).fb, false⟩ =
      drawRows s (originX s x) (originY s y) (List.range n.toNat) ⟨s.fb, false⟩ := by
    rw [drawRows_congr hi hmem hparams, originX, originY, hx, hy, hparams, hfb, originX, originY]
  unfold execDraw
  rw [hrows]
  cases drawRows s (originX s x) (originY s y) (List.range n.toNat) ⟨s.fb, false⟩ with
  | error e => rfl
  | ok c => exact congrArg _ (hwrite _ _).symm

/-- R40: every instruction but Call and Return does the same with any stack. -/
theorem exec_setStack {i : Instr} (hret : i ≠ .ret) (hcall : ∀ nnn, i ≠ .call nnn) (s : State) (k : List Word) :
    exec i (s.setStack k) = mapNext (·.setStack k) (exec i s) := by
  have hskip : ∀ b, skipIf (s.setStack k) b = (skipIf s b).setStack k := by
    intro b
    cases b <;> rfl
  cases i with
  | ret => exact absurd rfl hret
  | call nnn => exact absurd rfl (hcall nnn)
  | draw x y n => exact execDraw_comm (f := (·.setStack k)) n rfl rfl rfl rfl rfl rfl fun _ _ => rfl
  | skipEqVal | skipNeVal | skipEqReg | skipNeReg => exact congrArg Host.Outcome.next (hskip _)
  | skipKeyPressed x | skipKeyNotPressed x =>
    have hkey : keyOperand (s.setStack k) x = keyOperand s x := rfl
    simp only [exec, execSkipKeyPressed, execSkipKeyNotPressed, hkey]
    cases keyOperand s x with
    | none => rfl
    | some j => exact congrArg Host.Outcome.next (hskip _)
  | waitKey x =>
    have hkey : (s.setStack k).firstKey = s.firstKey := rfl
    simp only [exec, execWaitKey, hkey]
    split <;> rfl
  | _ => rfl

/-- Settles O48: the stack stays by the frame, and goes through by `exec_setStack`. -/
theorem onlyCallAndReturnSeeTheStack : Obligations.OnlyCallAndReturnSeeTheStack := by
  intro i s k hret hcall
  refine ⟨fun t h => ⟨?_, ?_⟩, fun f h => ?_⟩
  · have hframe : Component.stack ∉ writesOf i := by
      cases i with
      | ret => exact absurd rfl hret
      | call nnn => exact absurd rfl (hcall nnn)
      | _ => simp [writesOf]
    exact instructionsWriteOnlyTheirComponents i s t h .stack hframe
  · rw [exec_setStack hret hcall, h, mapNext]
  · rw [exec_setStack hret hcall, h, mapNext]

/-- R45, R42: the state with other keys and timers, the inputs a program of the base set cannot see (R53). -/
def withInputs (dt st : Byte) (key : Vector Bool numKeys) (s : State) : State :=
  { s with dt := dt, st := st, key := key }

/-- R53: no instruction of the base set sees the keys or the timers. -/
theorem exec_withInputs {i : Instr} (hbase : i.profile = .base) (dt st : Byte) (key : Vector Bool numKeys) (s : State) :
    exec i (withInputs dt st key s) = mapNext (withInputs dt st key) (exec i s) := by
  have hskip : ∀ b, skipIf (withInputs dt st key s) b = withInputs dt st key (skipIf s b) := by
    intro b
    cases b <;> rfl
  cases i with
  | draw x y n => exact execDraw_comm n rfl rfl rfl rfl rfl rfl fun _ _ => rfl
  | skipEqVal | skipNeVal | skipEqReg | skipNeReg => exact congrArg Host.Outcome.next (hskip _)
  | ret =>
    have hstack : (withInputs dt st key s).stack = s.stack := rfl
    simp only [exec, execReturn, hstack]
    split <;> rfl
  | call nnn =>
    have hfull : (withInputs dt st key s).stackFull = s.stackFull := rfl
    simp only [exec, execCall, hfull]
    split <;> rfl
  | clearScreen | jump | setRegister | addRegister | setIndex => rfl
  | _ => cases hbase

/-- R126: only a running core fetches. -/
theorem run_of_fetches {s : State} {i : Instr} (hf : Fetches s i) : s.run = .running := hf.1

/-- R63: a fetch is from a PC of at most 0x0FFE. -/
theorem pc_le_of_fetches {s : State} {i : Instr} (hf : Fetches s i) : s.pc.toNat ≤ 0x0FFE := hf.2.1

/-- R102: what is fetched belongs to the core's profile. -/
theorem wellFormed_of_fetches {s : State} {i : Instr} (hf : Fetches s i) : i.wellFormed s.params.extIo = true :=
  wellFormed_of_decodeWord hf.2.2

/-- R102: with EXT_IO false only the base set is fetched. -/
theorem base_of_fetches {s : State} {i : Instr} (hext : s.params.extIo = false) (hf : Fetches s i) :
    i.profile = .base := by
  obtain hbase | ⟨-, hon⟩ := wellFormed_iff.mp (wellFormed_of_fetches hf)
  · exact hbase
  · rw [hext] at hon
    cases hon

/-- R53: with EXT_IO false a tick does not see the keys or the timers. -/
theorem step_withInputs {s : State} (hext : s.params.extIo = false) (dt st : Byte) (key : Vector Bool numKeys) :
    step (withInputs dt st key s) = mapNext (withInputs dt st key) (step s) := by
  obtain hidle | ⟨hrun, hpc⟩ | ⟨hrun, hpc, hdec⟩ | ⟨i, hf⟩ := tick_cases s
  · rw [step_of_idle hidle, step_of_idle (s := withInputs dt st key s) hidle, mapNext]
  · rw [step_of_fetch_error hrun hpc, step_of_fetch_error (s := withInputs dt st key s) hrun hpc, mapNext]
  · rw [step_of_decode_error hrun hpc hdec, step_of_decode_error (s := withInputs dt st key s) hrun hpc hdec, mapNext]
    rfl
  · rw [step_of_fetches hf, step_of_fetches (s := withInputs dt st key s) (i := i) hf,
      ← exec_withInputs (base_of_fetches hext hf)]
    rfl

/-- Registers that read alike are equal. -/
theorem v_ext {s t : State} (h : ∀ x, t.getV x = s.getV x) : t.v = s.v := by
  refine Vector.ext fun j hj => ?_
  have hx := h (BitVec.ofNat 4 j)
  simpa only [State.getV, BitVec.toNat_ofNat, Nat.mod_eq_of_lt (show j < 2 ^ 4 from hj)] using hx

/-- Two states that differ at most in keys and timers are one state with other inputs. -/
theorem sameButInputs_iff {s t : State} : SameButInputs s t ↔ t = withInputs t.dt t.st t.key s := by
  constructor
  · rintro ⟨hw, hmem⟩
    have hv : t.v = s.v := v_ext fun x => hw (.v x) (by simp)
    have hi : t.i = s.i := hw .i (by decide)
    have hpc : t.pc = s.pc := hw .pc (by decide)
    have hstack : t.stack = s.stack := hw .stack (by decide)
    have hfb : t.fb = s.fb := hw .fb (by decide)
    have hrun : t.run = s.run := hw .run (by decide)
    have hparams : t.params = s.params := hw .params (by decide)
    rw [withInputs, ← hv, ← hi, ← hpc, ← hstack, ← hfb, ← hmem, ← hrun, ← hparams]
  · intro h
    rw [h]
    refine ⟨fun c hc => ?_, rfl⟩
    cases c with
    | dt | st | key => simp at hc
    | mem => exact fun _ => rfl
    | _ => rfl

/-- Settles O47: the second state is the first with other inputs, which every tick carries along. -/
theorem keysAndTimersAreInvisible : Obligations.KeysAndTimersAreInvisible := by
  intro s s' hext hsame
  have hstep : step s' = mapNext (withInputs s'.dt s'.st s'.key) (step s) := by
    rw [← step_withInputs hext, ← sameButInputs_iff.mp hsame]
  refine ⟨fun t ht => ⟨withInputs s'.dt s'.st s'.key t, ?_, sameButInputs_iff.mpr rfl⟩, fun f => ?_⟩
  · rw [hstep, ht, mapNext]
  · rw [hstep, mapNext_eq_fault_iff]

end Sys2Proof.Proofs
end

section
/-! Proofs of the statements of 40_execution_cycle.md about every tick: when one fails and with what, where it leaves
PC, and what ADVANCE makes of its ticks. -/

namespace Sys2Proof.Proofs
open Sys2Proof Sys2Proof.Machine

/-! ### The errors of a tick -/

/-- R126: only an idle core refuses a tick. -/
theorem idle_of_step_refused {s : State} {r : Refusal} (h : step s = .refused r) : s.run = .idle := by
  obtain hidle | ⟨hrun, hpc⟩ | ⟨hrun, hpc, hdec⟩ | ⟨i, hf⟩ := tick_cases s
  · exact hidle
  · rw [step_of_fetch_error hrun hpc] at h; cases h
  · rw [step_of_decode_error hrun hpc hdec] at h; cases h
  · rw [step_of_fetches hf] at h; exact absurd h (exec_ne_refused i _ r)

/-- Settles O15: no instruction is refused, and of the other ways a tick ends only the idle core's is a refusal. -/
theorem runningCoreRefusesNothing : Obligations.RunningCoreRefusesNothing :=
  ⟨exec_ne_refused, fun _ _ => idle_of_step_refused⟩

/-- R125: the error of a tick that fails is one of the listed ones. -/
theorem tickFails_of_step_fault {s : State} {f : Fault} (h : step s = .fault f) : TickFails s f := by
  obtain hidle | ⟨hrun, hpc⟩ | ⟨hrun, hpc, hdec⟩ | ⟨i, hf⟩ := tick_cases s
  · rw [step_of_idle hidle] at h; cases h
  · rw [step_of_fetch_error hrun hpc] at h; cases h; exact .fetch hpc
  · rw [step_of_decode_error hrun hpc hdec] at h; cases h; exact .decode hpc hdec
  · rw [step_of_fetches hf] at h; exact .execute hf (execFails_setPc.mp (exec_fault_iff.mp h))

/-- R125: a listed cause ends the tick of a running core. -/
theorem step_fault_of_tickFails {s : State} {f : Fault} (hrun : s.run = .running) (h : TickFails s f) :
    step s = .fault f := by
  cases h with
  | fetch hpc => exact step_of_fetch_error hrun hpc
  | decode hpc hdec => exact step_of_decode_error hrun hpc hdec
  | execute hf hfails => rw [step_of_fetches hf]; exact exec_fault_iff.mpr (execFails_setPc.mpr hfails)

/-- Settles O13, one direction each. -/
theorem tickRaisesExactlyTheListedErrors : Obligations.TickRaisesExactlyTheListedErrors := by
  intro s f hrun
  exact ⟨tickFails_of_step_fault, step_fault_of_tickFails hrun⟩

/-- R98, R41: the errors no tick raises, and the one that needs a finite STACK_LIMIT. -/
theorem fault_of_tickFails {s : State} {f : Fault} (h : TickFails s f) :
    f ≠ .invalidRegister ∧ f ≠ .capacityExceeded ∧ (s.params.stackLimit = none → f ≠ .stackOverflow) := by
  cases h with
  | fetch | decode => simp
  | execute _ hfails =>
    cases hfails with
    | call nnn hlimit => simp [hlimit]
    | ret | draw | skipKeyPressed | skipKeyNotPressed => simp

/-! ### ADVANCE -/

/-- R127: the error an ADVANCE answers is that of a tick from the state it answers. -/
theorem step_fault_of_runTicks_err {n : Nat} {s t : State} {f : Fault} (h : runTicks n s = .answered t (.err f)) :
    step t = .fault f := by
  induction n generalizing s with
  | zero => cases h
  | succ n ih =>
    rw [runTicks] at h
    split at h
    · exact ih h
    · next hs => cases h; exact hs
    · cases h

/-- R126: ADVANCE answers only a running core. -/
theorem running_of_advance {n : Nat} {s t : State} {r : Reply} (h : advance n s = .answered t r) :
    s.run = .running := by
  unfold advance at h
  split at h
  · cases h
  · assumption

/-- R127: the same of ADVANCE. -/
theorem step_fault_of_advance_err {n : Nat} {s t : State} {f : Fault} (h : advance n s = .answered t (.err f)) :
    step t = .fault f := by
  rw [advance_of_running (running_of_advance h)] at h
  exact step_fault_of_runTicks_err h

/-- Settles O12. -/
theorem idleCoreRefusesAdvance : Obligations.IdleCoreRefusesAdvance := by
  intro s hidle
  exact ⟨step_of_idle hidle, fun n => by rw [advance, hidle]⟩

/-- Settles O14: a tick's errors are listed, an ADVANCE's are a tick's, and LOAD's one is another. -/
theorem invalidRegisterIsNeverRaised : Obligations.InvalidRegisterIsNeverRaised := by
  refine ⟨fun s f h => fault_of_tickFails (tickFails_of_step_fault h), fun op s t h => ?_⟩
  cases op with
  | load bytes =>
    obtain ⟨-, -, hr⟩ | ⟨-, hr, -⟩ := load_cases h
    · cases hr
    · cases hr
  | advance n => exact (fault_of_tickFails (tickFails_of_step_fault (step_fault_of_advance_err h))).1 rfl
  | submitKey k down =>
    obtain ⟨-, -, hr⟩ := submitKey_cases h
    cases hr
  | readFb | tickTimers => cases h

/-- R127: one tick, then the rest of the ADVANCE, in the same run state. -/
theorem advance_succ_of_step_next {s t : State} (h : step s = .next t) (n : Nat) :
    advance (n + 1) s = advance n t := by
  obtain ⟨i, hf, hexec⟩ := fetches_of_step_next h
  obtain ⟨-, -, hrun, -⟩ := exec_keeps hexec
  have hs := run_of_fetches hf
  rw [advance_of_running hs, advance_of_running (hrun.trans hs), runTicks, h]

/-- R126: an ADVANCE whose first tick is refused is refused. -/
theorem advance_of_step_refused {s : State} {r : Refusal} (h : step s = .refused r) (n : Nat) :
    advance n s = .refused .advanceWhileIdle := by
  rw [advance, idle_of_step_refused h]

/-- R127: an ADVANCE that completed goes on from the state it left. -/
theorem advance_add_of_ok {m : Nat} {s t : State} (h : advance m s = .answered t .ok) (n : Nat) :
    advance (m + n) s = advance n t := by
  induction m generalizing s with
  | zero =>
    rw [advance_of_running (running_of_advance h)] at h
    cases h
    rw [Nat.zero_add]
  | succ m ih =>
    rw [Nat.add_right_comm]
    cases hstep : step s with
    | next u =>
      rw [advance_succ_of_step_next hstep] at h ⊢
      exact ih h
    | fault f => rw [advance_succ_of_step_fault hstep] at h; cases h
    | refused r => rw [advance_of_step_refused hstep] at h; cases h

/-- R127: an ADVANCE that failed fails the same with more ticks. -/
theorem advance_add_of_err {m : Nat} {s t : State} {f : Fault} (h : advance m s = .answered t (.err f)) (n : Nat) :
    advance (m + n) s = .answered t (.err f) := by
  induction m generalizing s with
  | zero => rw [advance_of_running (running_of_advance h)] at h; cases h
  | succ m ih =>
    rw [Nat.add_right_comm]
    cases hstep : step s with
    | next u =>
      rw [advance_succ_of_step_next hstep] at h ⊢
      exact ih h
    | fault g => rw [advance_succ_of_step_fault hstep] at h ⊢; exact h
    | refused r => rw [advance_of_step_refused hstep] at h; cases h

/-- Settles O54: the clauses for no tick and for one, and the splitting by induction on the first count. -/
theorem advanceRunsTicksUntilTheFirstError : Obligations.AdvanceRunsTicksUntilTheFirstError :=
  ⟨fun _ hrun => advance_of_running hrun 0, fun n _ _ h => advance_succ_of_step_next h n,
    fun n _ _ h => advance_succ_of_step_fault h n, fun _ n _ _ h => advance_add_of_ok h n,
    fun _ n _ _ _ h => advance_add_of_err h n⟩

/-- R124, R127: an ADVANCE from a state whose tick fails leaves that state. -/
theorem eq_of_advance_of_step_fault {n : Nat} {s t : State} {r : Reply} {f : Fault} (hf : step s = .fault f)
    (h : advance n s = .answered t r) : t = s := by
  cases n with
  | zero => rw [advance_of_running (run_of_step_fault hf)] at h; cases h; rfl
  | succ n => rw [advance_succ_of_step_fault hf] at h; cases h; rfl

/-- R125, R131: no cause of an error depends on the keys or the timers. -/
theorem tickFails_withInputs {s : State} {f : Fault} (h : TickFails s f) (dt st : Byte) (key : Vector Bool numKeys) :
    TickFails (withInputs dt st key s) f := by
  cases h with
  | fetch hpc => exact .fetch hpc
  | decode hpc hdec => exact .decode (s := withInputs dt st key s) hpc hdec
  | execute hf hfails =>
    refine .execute (s := withInputs dt st key s) hf ?_
    cases hfails with
    | ret hs => exact .ret hs
    | call nnn hs => exact .call nnn hs
    | draw x y n hr => exact .draw x y n hr
    | skipKeyPressed x hx => exact .skipKeyPressed x hx
    | skipKeyNotPressed x hx => exact .skipKeyNotPressed x hx

/-- R131: past a failing tick only a LOAD helps: every other operation leaves all but the keys and the timers. -/
theorem step_fault_of_hostStep {op : HostOp} {s t : State} {r : Reply} {f : Fault} (hf : step s = .fault f)
    (hop : ∀ bytes, op ≠ .load bytes) (h : hostStep op s = .answered t r) : step t = .fault f := by
  have hrun : s.run = .running := run_of_step_fault hf
  have hinputs : ∀ dt st key, step (withInputs dt st key s) = .fault f := fun dt st key =>
    step_fault_of_tickFails hrun (tickFails_withInputs (tickFails_of_step_fault hf) dt st key)
  cases op with
  | load bytes => exact absurd rfl (hop bytes)
  | advance n => rw [eq_of_advance_of_step_fault hf h]; exact hf
  | readFb => cases h; exact hf
  | submitKey k down =>
    obtain ⟨hk, rfl, -⟩ := submitKey_cases h
    exact hinputs s.dt s.st (s.setKey ⟨k, hk⟩ down).key
  | tickTimers => cases h; exact hinputs (timerTick s.dt) (timerTick s.st) s.key

/-- Settles O55: the tick that failed fails again, in the same state or past an operation other than LOAD. -/
theorem failedAdvanceFailsAgain : Obligations.FailedAdvanceFailsAgain := by
  intro n s t f h
  have hf : step t = .fault f := step_fault_of_advance_err h
  exact ⟨hf, advance_succ_of_step_fault hf,
    fun op u r hop hu k => advance_succ_of_step_fault (step_fault_of_hostStep hf hop hu) k⟩

/-! ### PC -/

/-- R154: a tick of a skip moves PC by 4 or by 2, exactly. -/
theorem toNat_pc_skipIf {s : State} {i : Instr} (hf : Fetches s i) (b : Bool) :
    (skipIf (s.setPc (s.pc + 2)) b).pc.toNat = s.pc.toNat + if b then 4 else 2 := by
  have hpc := toNat_pc_add_two hf
  have hbound := pc_le_of_fetches hf
  cases b
  · exact hpc
  · show (s.pc + 2 + 2).toNat = _
    rw [BitVec.toNat_add, hpc, show (2 : Word).toNat = 2 from rfl, if_pos rfl]
    omega

/-- R154: so it moves PC by 2, or by 4. -/
theorem toNat_pc_skipIf_cases {s : State} {i : Instr} (hf : Fetches s i) (b : Bool) :
    (skipIf (s.setPc (s.pc + 2)) b).pc.toNat = s.pc.toNat + 2 ∨
      (skipIf (s.setPc (s.pc + 2)) b).pc.toNat = s.pc.toNat + 4 := by
  rw [toNat_pc_skipIf hf]
  cases b <;> simp

/-- R102: an instruction of the profile is fetched only with EXT_IO true. -/
theorem extIo_of_fetches {s : State} {i : Instr} (hf : Fetches s i) (hi : i.profile = .extIo) :
    s.params.extIo = true := by
  obtain hbase | ⟨-, hon⟩ := wellFormed_iff.mp (wellFormed_of_fetches hf)
  · rw [hi] at hbase
    cases hbase
  · exact hon

/-- R36: where a tick of `i` leaves PC. -/
def PcChange (s t : State) (i : Instr) : Prop :=
  t.pc.toNat = s.pc.toNat + 2 ∨
  (t.pc.toNat = s.pc.toNat + 4 ∧
    ((∃ x kk, i = .skipEqVal x kk ∨ i = .skipNeVal x kk) ∨
     (∃ x y, i = .skipEqReg x y ∨ i = .skipNeReg x y) ∨
     (∃ x, i = .skipKeyPressed x ∨ i = .skipKeyNotPressed x))) ∨
  (∃ nnn, (i = .jump nnn ∨ i = .call nnn) ∧ t.pc.toNat = nnn.toNat) ∨
  (i = .ret ∧ s.stack.head? = some t.pc) ∨
  (∃ x, i = .waitKey x ∧ s.params.extIo = true ∧ t.pc = s.pc)

/-- R36, instruction by instruction. -/
theorem pcChange_of_executes {s t : State} {i : Instr} (hf : Fetches s i)
    (h : Executes (s.setPc (s.pc + 2)) i t) : PcChange s t i := by
  have hnext := toNat_pc_add_two hf
  have hskip := toNat_pc_skipIf_cases hf
  cases h with
  | ret top rest hs => exact .inr (.inr (.inr (.inl ⟨rfl, congrArg List.head? hs⟩)))
  | jump nnn => exact .inr (.inr (.inl ⟨nnn, .inl rfl, toNat_addrOperand nnn⟩))
  | call nnn => exact .inr (.inr (.inl ⟨nnn, .inr rfl, toNat_addrOperand nnn⟩))
  | skipEqVal x kk => exact (hskip _).imp_right fun h4 => .inl ⟨h4, .inl ⟨x, kk, .inl rfl⟩⟩
  | skipNeVal x kk => exact (hskip _).imp_right fun h4 => .inl ⟨h4, .inl ⟨x, kk, .inr rfl⟩⟩
  | skipEqReg x y => exact (hskip _).imp_right fun h4 => .inl ⟨h4, .inr (.inl ⟨x, y, .inl rfl⟩)⟩
  | skipNeReg x y => exact (hskip _).imp_right fun h4 => .inl ⟨h4, .inr (.inl ⟨x, y, .inr rfl⟩)⟩
  | skipKeyPressed x => exact (hskip _).imp_right fun h4 => .inl ⟨h4, .inr (.inr ⟨x, .inl rfl⟩)⟩
  | skipKeyNotPressed x => exact (hskip _).imp_right fun h4 => .inl ⟨h4, .inr (.inr ⟨x, .inr rfl⟩)⟩
  | waitKeyAgain x =>
    exact .inr (.inr (.inr (.inr ⟨x, rfl, extIo_of_fetches hf rfl, BitVec.add_sub_cancel s.pc 2⟩)))
  | _ => exact .inl hnext

/-- Settles O16: the ticks by `pcChange_of_executes`, the host's operations by their own cases. -/
theorem pcChangesOnlyInTheListedWays : Obligations.PcChangesOnlyInTheListedWays := by
  refine ⟨fun s t h => ?_, fun s f h => advance_succ_of_step_fault h 0, fun op s t r h => ?_, fun p => rfl⟩
  · obtain ⟨i, hf, hexec⟩ := fetches_of_step_next h
    exact ⟨i, hf, pcChange_of_executes hf (executes_of_next hexec)⟩
  · cases op with
    | load bytes =>
      obtain ⟨-, rfl, -⟩ | ⟨-, rfl, rfl⟩ := load_cases h
      · exact .inl rfl
      · exact .inr (.inl ⟨bytes, rfl, rfl, rfl⟩)
    | advance n => exact .inr (.inr ⟨n, rfl⟩)
    | readFb | tickTimers => cases h; exact .inl rfl
    | submitKey k down =>
      obtain ⟨hk, rfl, -⟩ := submitKey_cases h
      exact .inl rfl

/-- R142: a tick of a Jump to its own address is the identity. -/
theorem step_jump_self {s : State} {nnn : Addr12} (hf : Fetches s (.jump nnn)) (hself : s.pc.toNat = nnn.toNat) :
    step s = .next s := by
  have htarget : addrOperand nnn = s.pc := BitVec.eq_of_toNat_eq ((toNat_addrOperand nnn).trans hself.symm)
  rw [step_of_fetches hf]
  show Host.Outcome.next (s.setPc (addrOperand nnn)) = .next s
  rw [htarget]
  rfl

/-- Settles O17, by induction on the count: each tick gives the state back. -/
theorem jumpToItselfIsNoFault : Obligations.JumpToItselfIsNoFault := by
  intro nnn s hf hself n
  induction n with
  | zero => exact advance_of_running (run_of_fetches hf) 0
  | succ n ih => rw [advance_succ_of_step_next (step_jump_self hf hself), ih]

end Sys2Proof.Proofs
end

section
/-! Proofs of the statements about what the ticks and the host's operations leave unchanged: memory, the keys, the
timers and Run (R47, R50, R129). -/

namespace Sys2Proof.Proofs
open Sys2Proof Sys2Proof.Machine

/-- R50, R129: no tick writes memory, the key map, the run state or the parameters. -/
theorem step_keeps {s t : State} (h : step s = .next t) :
    t.mem = s.mem ∧ t.key = s.key ∧ t.run = s.run ∧ t.params = s.params := by
  obtain ⟨i, -, hexec⟩ := fetches_of_step_next h
  exact exec_keeps (s := s.setPc (s.pc + 2)) hexec

/-- R129: nor does an ADVANCE. -/
theorem advance_keeps {n : Nat} {s t : State} {r : Reply} (h : advance n s = .answered t r) :
    t.mem = s.mem ∧ t.key = s.key ∧ t.run = s.run ∧ t.params = s.params := by
  refine advance_induction
    (P := fun s t => t.mem = s.mem ∧ t.key = s.key ∧ t.run = s.run ∧ t.params = s.params)
    (fun s => ⟨rfl, rfl, rfl, rfl⟩) (fun s t u hstep htu => ?_) h
  obtain ⟨hmem, hkey, hrun, hparams⟩ := step_keeps hstep
  obtain ⟨hmem', hkey', hrun', hparams'⟩ := htu
  exact ⟨hmem'.trans hmem, hkey'.trans hkey, hrun'.trans hrun, hparams'.trans hparams⟩

/-- A byte is read from memory and the parameters alone. -/
theorem byteAt_congr {s t : State} (hmem : t.mem = s.mem) (hparams : t.params = s.params) (a : Nat) :
    t.byteAt a = s.byteAt a := by
  rw [State.byteAt, State.byteAt, hmem, hparams]

/-- Settles O40: only LOAD writes memory, from 0x200 on. -/
theorem nothingWritesTheReservedRegion : Obligations.NothingWritesTheReservedRegion := by
  refine ⟨fun s t h a => ?_, fun op s t r h a ha => ?_⟩
  · obtain ⟨hmem, -, -, hparams⟩ := step_keeps h
    exact byteAt_congr hmem hparams a
  · cases op with
    | load bytes =>
      obtain ⟨-, rfl, -⟩ | ⟨-, -, rfl⟩ := load_cases h
      · rfl
      · exact Memory.read_writeAll_outside s.params s.mem bytes (.inl ha)
    | advance n =>
      obtain ⟨hmem, -, -, hparams⟩ := advance_keeps h
      exact byteAt_congr hmem hparams a
    | submitKey k down =>
      obtain ⟨hk, rfl, -⟩ := submitKey_cases h
      rfl
    | readFb | tickTimers => cases h; rfl

/-- R223: a tick that writes DT ran SetDelay. -/
theorem dt_of_step_next {s t : State} (h : step s = .next t) : t.dt = s.dt ∨ ∃ x, Fetches s (.setDelay x) := by
  obtain ⟨i, hf, hexec⟩ := fetches_of_step_next h
  exact (dt_of_executes (executes_of_next hexec)).imp_right fun ⟨x, hi⟩ => ⟨x, hi ▸ hf⟩

/-- R223: a tick that writes ST ran SetSound. -/
theorem st_of_step_next {s t : State} (h : step s = .next t) : t.st = s.st ∨ ∃ x, Fetches s (.setSound x) := by
  obtain ⟨i, hf, hexec⟩ := fetches_of_step_next h
  exact (st_of_executes (executes_of_next hexec)).imp_right fun ⟨x, hi⟩ => ⟨x, hi ▸ hf⟩

/-- R129: with EXT_IO false neither runs, so no tick writes a timer. -/
theorem timers_of_step_next {s t : State} (hext : s.params.extIo = false) (h : step s = .next t) :
    t.dt = s.dt ∧ t.st = s.st := by
  constructor
  · refine (dt_of_step_next h).resolve_right fun ⟨x, hf⟩ => ?_
    cases base_of_fetches hext hf
  · refine (st_of_step_next h).resolve_right fun ⟨x, hf⟩ => ?_
    cases base_of_fetches hext hf

/-- Settles O41: the keys are kept by every tick; the timers too unless SetDelay or SetSound runs, which EXT_IO false
rules out. -/
theorem advanceLeavesKeysAndTimers : Obligations.AdvanceLeavesKeysAndTimers := by
  refine ⟨fun n s t r h => ?_, fun s t h => ?_⟩
  · obtain ⟨-, hkey, -, -⟩ := advance_keeps h
    refine ⟨hkey, ?_⟩
    refine advance_induction (P := fun s t => s.params.extIo = false → t.dt = s.dt ∧ t.st = s.st)
      (fun s _ => ⟨rfl, rfl⟩) (fun s t u hstep htu hext => ?_) h
    obtain ⟨-, -, -, hparams⟩ := step_keeps hstep
    obtain ⟨hdt, hst⟩ := timers_of_step_next hext hstep
    obtain ⟨hdt', hst'⟩ := htu (by rw [hparams, hext])
    exact ⟨hdt'.trans hdt, hst'.trans hst⟩
  · exact ⟨(dt_of_step_next h).resolve_left, (st_of_step_next h).resolve_left⟩

/-- R256: what a LOAD that answers Ok leaves. -/
theorem load_ok {bytes : List Byte} {s t : State} (h : load bytes s = .answered t .ok) :
    progBase + bytes.length ≤ memSize ∧
      t = (({ s with mem := Memory.writeAll s.params s.mem progBase bytes } : State).setPc
        (BitVec.ofNat 16 progBase)).setRun .running := by
  obtain ⟨-, -, hr⟩ | ⟨hroom, -, ht⟩ := load_cases h
  · cases hr
  · exact ⟨hroom, ht⟩

/-- Settles O42: only a LOAD that answers Ok writes Run. -/
theorem runOnlyGoesFromIdleToRunning : Obligations.RunOnlyGoesFromIdleToRunning := by
  refine ⟨fun p => rfl, fun s t h => ?_, fun op s t r h => ?_, fun bytes s t h => ?_⟩
  · obtain ⟨-, -, hrun, -⟩ := step_keeps h
    exact hrun
  · cases op with
    | load bytes =>
      obtain ⟨-, rfl, -⟩ | ⟨-, rfl, rfl⟩ := load_cases h
      · exact .inl rfl
      · exact .inr ⟨bytes, rfl, rfl, rfl, rfl⟩
    | advance n =>
      obtain ⟨-, -, hrun, -⟩ := advance_keeps h
      exact .inl hrun
    | submitKey k down =>
      obtain ⟨hk, rfl, -⟩ := submitKey_cases h
      exact .inl rfl
    | readFb | tickTimers => cases h; exact .inl rfl
  · obtain ⟨-, rfl⟩ := load_ok h
    exact ⟨rfl, rfl⟩

end Sys2Proof.Proofs
end

section
/-! Proofs of the statements about the invariant: it holds after CONSTRUCT, every tick and every operation of the host
keeps it, and so it holds in every state a host can bring a core into (R34, R37, R41, R42, R47). -/

namespace Sys2Proof.Proofs
open Sys2Proof Sys2Proof.Machine

/-! ### After CONSTRUCT -/

/-- R51: CONSTRUCT lists no byte, saves no PC and starts idle, every register and timer 0. -/
theorem inv_construct {p : Params} (hp : p.wf = true) : Inv (State.construct p) where
  params := hp
  mem := ⟨List.Pairwise.nil, fun _ h => absurd h List.not_mem_nil⟩
  pc := Nat.zero_le _
  stack := fun _ h => absurd h List.not_mem_nil
  index := Nat.zero_le _
  depth := fun limit _ => Nat.zero_le limit
  timers := fun _ => ⟨rfl, rfl⟩
  idle := fun _ => rfl

/-- Settles O44. -/
theorem invariantHoldsAfterConstruct : Obligations.InvariantHoldsAfterConstruct :=
  ⟨fun _ => inv_construct, inv_construct (by decide)⟩

/-! ### Every tick -/

/-- R37: past a fetch PC is at most 0x1000. -/
theorem toNat_pc_add_two_le {s : State} {i : Instr} (hf : Fetches s i) : (s.pc + 2).toNat ≤ 0x1000 := by
  have hpc := pc_le_of_fetches hf
  rw [toNat_pc_add_two hf]
  omega

/-- R37: PC stays at most 0x1002: a skip is taken from at most 0x0FFE, a transfer goes to a 12-bit address or to a
saved PC. -/
theorem pc_le_of_pcChange {s t : State} {i : Instr} (hs : Inv s) (hf : Fetches s i) (h : PcChange s t i) :
    t.pc.toNat ≤ 0x1002 := by
  have hpc := pc_le_of_fetches hf
  obtain hnext | ⟨hskip, -⟩ | ⟨nnn, -, htarget⟩ | ⟨-, hpop⟩ | ⟨-, -, -, hstay⟩ := h
  · omega
  · omega
  · have := nnn.isLt
    omega
  · have := hs.stack t.pc (List.mem_of_head? hpop)
    omega
  · rw [hstay]
    exact hs.pc

/-- R197: with the font below the program region a glyph's address is at most 0x0FFF. -/
theorem toNat_glyphOperand_le {s : State} (hp : s.params.wf = true) (x : RegIdx) :
    (glyphOperand s x).toNat ≤ 0x0FFF := by
  have hfont : s.params.fontBase.toNat + 80 ≤ 0x200 := of_decide_eq_true hp
  rw [toNat_glyphOperand]
  omega

/-- R34: I stays at most 0x0FFF. -/
theorem index_le_of_executes {i : Instr} {s t : State} (hp : s.params.wf = true) (hi : s.i.toNat ≤ 0x0FFF)
    (h : Executes s i t) : t.i.toNat ≤ 0x0FFF := by
  obtain he | ⟨nnn, he⟩ | ⟨x, he⟩ := index_of_executes h
  · rw [he]
    exact hi
  · have := nnn.isLt
    rw [he, toNat_addrOperand]
    omega
  · rw [he]
    exact toNat_glyphOperand_le hp x

/-- R37: every saved PC is still a post-fetch PC. -/
theorem saved_pc_le_of_executes {i : Instr} {s t : State} (hs : ∀ a ∈ s.stack, a.toNat ≤ 0x1000)
    (hpc : s.pc.toNat ≤ 0x1000) (h : Executes s i t) : ∀ a ∈ t.stack, a.toNat ≤ 0x1000 := by
  intro a ha
  obtain he | ⟨he, -⟩ | ⟨top, he⟩ := stack_of_executes h
  · exact hs a (he ▸ ha)
  · rw [he] at ha
    obtain rfl | ha := List.mem_cons.mp ha
    · exact hpc
    · exact hs a ha
  · exact hs a (he ▸ List.mem_cons_of_mem top ha)

/-- R41: the stack grows only below its limit. -/
theorem depth_le_of_executes {i : Instr} {s t : State} {limit : Nat} (hlimit : s.params.stackLimit = some limit)
    (hs : s.stack.length ≤ limit) (h : Executes s i t) : t.stack.length ≤ limit := by
  obtain he | ⟨he, hfree⟩ | ⟨top, he⟩ := stack_of_executes h
  · rw [he]
    exact hs
  · have hne : limit ≠ s.stack.length := fun e => hfree (by rw [hlimit, e])
    rw [he, List.length_cons]
    omega
  · have : s.stack.length = t.stack.length + 1 := by rw [he, List.length_cons]
    omega

/-- The invariant is kept by every tick, component by component. -/
theorem inv_of_step_next {s t : State} (hs : Inv s) (h : step s = .next t) : Inv t := by
  obtain ⟨i, hf, hexec⟩ := fetches_of_step_next h
  obtain ⟨hmem, -, hrun, hparams⟩ := step_keeps h
  have hx : Executes (s.setPc (s.pc + 2)) i t := executes_of_next hexec
  exact {
    params := by rw [hparams]; exact hs.params
    mem := by rw [hparams, hmem]; exact hs.mem
    pc := pc_le_of_pcChange hs hf (pcChange_of_executes hf hx)
    stack := saved_pc_le_of_executes (s := s.setPc (s.pc + 2)) hs.stack (toNat_pc_add_two_le hf) hx
    index := index_le_of_executes (s := s.setPc (s.pc + 2)) hs.params hs.index hx
    depth := fun limit hlimit => by
      rw [hparams] at hlimit
      exact depth_le_of_executes (s := s.setPc (s.pc + 2)) hlimit (hs.depth limit hlimit) hx
    timers := fun hext => by
      rw [hparams] at hext
      obtain ⟨hdt, hst⟩ := timers_of_step_next hext h
      rw [hdt, hst]
      exact hs.timers hext
    idle := fun hidle => by
      rw [hrun, run_of_fetches hf] at hidle
      cases hidle }

/-- Settles O43. -/
theorem tickKeepsTheInvariant : Obligations.TickKeepsTheInvariant := by
  intro s t hs h
  exact inv_of_step_next hs h

/-! ### Every operation of the host -/

/-- R256: a LOAD that succeeds writes in bounds and leaves a running core at 0x200. -/
theorem inv_load {bytes : List Byte} {s : State} (hs : Inv s) (hroom : progBase + bytes.length ≤ memSize) :
    Inv ((({ s with mem := Memory.writeAll s.params s.mem progBase bytes } : State).setPc
      (BitVec.ofNat 16 progBase)).setRun .running) where
  params := hs.params
  mem := Memory.wf_writeAll hs.mem bytes hroom
  pc := show progBase ≤ 0x1002 by decide
  stack := hs.stack
  index := hs.index
  depth := hs.depth
  timers := hs.timers
  idle := fun hidle => by cases hidle

/-- R235: SUBMIT_KEY writes the one component the invariant leaves free. -/
theorem inv_setKey {s : State} (hs : Inv s) (k : Fin numKeys) (down : Bool) : Inv (s.setKey k down) where
  params := hs.params
  mem := hs.mem
  pc := hs.pc
  stack := hs.stack
  index := hs.index
  depth := hs.depth
  timers := hs.timers
  idle := fun hidle => congrArg (·.setKey k down) (hs.idle hidle)

/-- R229: TICK_TIMERS leaves a timer that is 0. -/
theorem tickTimers_of_zero {s : State} (hdt : s.dt = 0) (hst : s.st = 0) : tickTimers s = s := by
  have hdt' : timerTick s.dt = s.dt := by rw [hdt]; rfl
  have hst' : timerTick s.st = s.st := by rw [hst]; rfl
  rw [tickTimers, hdt', hst']
  rfl

/-- R228: TICK_TIMERS writes the timers alone, and not those that are 0, as they are before the first LOAD. -/
theorem inv_tickTimers {s : State} (hs : Inv s) : Inv (tickTimers s) where
  params := hs.params
  mem := hs.mem
  pc := hs.pc
  stack := hs.stack
  index := hs.index
  depth := hs.depth
  timers := fun hext => by
    obtain ⟨hdt, hst⟩ := hs.timers hext
    rw [tickTimers_of_zero hdt hst]
    exact ⟨hdt, hst⟩
  idle := fun hidle => by
    have hreset := hs.idle hidle
    rw [tickTimers_of_zero (by rw [hreset]; rfl) (by rw [hreset]; rfl)]
    exact hreset

/-- The invariant is kept by every operation that is answered; for ADVANCE tick by tick. -/
theorem inv_of_hostStep {op : HostOp} {s t : State} {r : Reply} (hs : Inv s) (h : hostStep op s = .answered t r) :
    Inv t := by
  cases op with
  | load bytes =>
    obtain ⟨-, rfl, -⟩ | ⟨hroom, -, rfl⟩ := load_cases h
    · exact hs
    · exact inv_load hs hroom
  | advance n =>
    exact advance_induction (P := fun s t => Inv s → Inv t) (fun _ hs => hs)
      (fun _ _ _ hstep htu hs => htu (inv_of_step_next hs hstep)) h hs
  | submitKey k down =>
    obtain ⟨hk, rfl, -⟩ := submitKey_cases h
    exact inv_setKey hs ⟨k, hk⟩ down
  | readFb => cases h; exact hs
  | tickTimers => cases h; exact inv_tickTimers hs

/-- Settles O45. -/
theorem hostOperationsKeepTheInvariant : Obligations.HostOperationsKeepTheInvariant := by
  intro op s t r hs h
  exact inv_of_hostStep hs h

/-! ### Every reachable state -/

/-- R257: so the invariant holds in every state a host can bring a core into. -/
theorem inv_of_reachable {p : Params} {s : State} (hp : p.wf = true) (h : Reachable p s) : Inv s := by
  induction h with
  | construct => exact inv_construct hp
  | host op _ hstep ih => exact inv_of_hostStep ih hstep

/-- Settles O46: the bounds are the invariant's, the failing fetch is `step_of_fetch_error`. -/
theorem pcNeverPassesFourKilobytesAndTwo : Obligations.PcNeverPassesFourKilobytesAndTwo := by
  intro p s hp h
  have hs := inv_of_reachable hp h
  exact ⟨hs.pc, hs.stack, fun hrun hpast => step_of_fetch_error hrun hpast⟩

end Sys2Proof.Proofs
end

section
/-! Proofs of the statements of 41_control_flow.md about Return and Call. -/

namespace Sys2Proof.Proofs
open Sys2Proof Sys2Proof.Machine

/-- R141: Return, with a stack to pop. -/
theorem exec_ret_of_cons {s : State} {top : Word} {rest : List Word} (h : s.stack = top :: rest) :
    exec .ret s = .next ((s.setStack rest).setPc top) := by
  simp only [exec, execReturn, h]

/-- R143: Call, below the limit. -/
theorem exec_call_of_free {s : State} {nnn : Addr12} (h : s.params.stackLimit ≠ some s.stack.length) :
    exec (.call nnn) s = .next ((s.setStack (s.pc :: s.stack)).setPc (addrOperand nnn)) := by
  simp [exec, execCall, State.stackFull, h]

/-- R124, R125: a tick whose instruction fails is undone as a whole. -/
theorem advance_one_of_execFails {s : State} {i : Instr} {f : Fault} (hf : Fetches s i) (h : ExecFails s i f) :
    advance 1 s = .answered s (.err f) :=
  advance_succ_of_step_fault (step_fault_of_tickFails (run_of_fetches hf) (.execute hf h)) 0

/-- Settles O19: the pop by `exec_ret_of_cons`, the underflow by `exec_fault_iff`. -/
theorem returnPopsTheStackIntoPc : Obligations.ReturnPopsTheStackIntoPc := by
  refine ⟨fun s top rest hs => ?_, fun s hs => exec_fault_iff.mpr (.ret hs),
    fun s hf hs => advance_one_of_execFails hf (.ret hs)⟩
  exact ⟨(s.setStack rest).setPc top, exec_ret_of_cons hs, rfl, rfl, onlyWrites_setStack_setPc s rest top,
    fun hrun hpast => step_of_fetch_error (s := (s.setStack rest).setPc top) hrun hpast⟩

/-- Settles O21: the push by `exec_call_of_free`, the overflow by `exec_fault_iff`. -/
theorem callPushesPcAndJumps : Obligations.CallPushesPcAndJumps := by
  refine ⟨decodeWord_formatNNN_call, fun nnn s hfree => ?_, fun nnn s hfull => exec_fault_iff.mpr (.call nnn hfull),
    fun nnn s hf hfull => advance_one_of_execFails hf (.call nnn hfull)⟩
  exact ⟨_, exec_call_of_free hfree, rfl, toNat_addrOperand nnn, onlyWrites_setStack_setPc s _ _⟩

/-- R121: a tick writes PC, and what its instruction writes. -/
theorem onlyWrites_of_step_next {s t : State} {i : Instr} (hf : Fetches s i) (h : step s = .next t) :
    OnlyWrites (.pc :: writesOf i) s t := by
  rw [step_of_fetches hf] at h
  exact (onlyWrites_setPc s (s.pc + 2)).trans (onlyWrites_of_executes (executes_of_next h))

/-- R143: a Call's tick pushes the address after the Call. -/
theorem stack_of_step_call {s t : State} {nnn : Addr12} (hf : Fetches s (.call nnn)) (h : step s = .next t) :
    t.stack = (s.pc + 2) :: s.stack := by
  rw [step_of_fetches hf] at h
  cases executes_of_next h
  rfl

/-- R141: a Return's tick pops the stack into PC. -/
theorem step_ret_of_cons {s : State} {top : Word} {rest : List Word} (hf : Fetches s .ret)
    (h : s.stack = top :: rest) : ∃ t, step s = .next t ∧ t.pc = top ∧ t.stack = rest :=
  ⟨_, (step_of_fetches hf).trans (exec_ret_of_cons (s := s.setPc (s.pc + 2)) h), rfl, rfl⟩

/-- Settles O22: what the Call pushed is what the Return pops; the frames are those of the two ticks. -/
theorem returnResumesAfterItsCall : Obligations.ReturnResumesAfterItsCall := by
  intro s t u nnn hcall hstep hstack hret
  obtain ⟨w, hw, hpc, hrest⟩ := step_ret_of_cons hret (hstack.trans (stack_of_step_call hcall hstep))
  refine ⟨w, hw, ?_, hrest, (onlyWrites_of_step_next hcall hstep).mono (by simp [writesOf]),
    (onlyWrites_of_step_next hret hw).mono (by simp [writesOf])⟩
  rw [hpc, toNat_pc_add_two hcall]

end Sys2Proof.Proofs
end

section
/-! Proofs of the statements of 42_skips.md about the register skips, and about the tick of a skip. -/

namespace Sys2Proof.Proofs
open Sys2Proof Sys2Proof.Machine

/-- Settles O24: each register skip is `skipIf` of its comparison, which with x = y is of a value with itself. -/
theorem registerSkipsAddTwoWhenTheirConditionHolds : Obligations.RegisterSkipsAddTwoWhenTheirConditionHolds := by
  intro x y s
  have heq := pc_skipIf_beq s (s.getV x) (s.getV y)
  have hne := pc_skipIf_bne s (s.getV x) (s.getV y)
  refine ⟨fun extIo => ⟨decodeWord_formatXYN_skipEqReg extIo x y, decodeWord_formatXYN_skipNeReg extIo x y⟩,
    ⟨skipIf s (s.getV x == s.getV y), rfl, heq, onlyWrites_skipIf s _, ?_⟩,
    ⟨skipIf s (s.getV x != s.getV y), rfl, hne, onlyWrites_skipIf s _, ?_⟩⟩
  · rintro rfl
    rw [heq, if_pos rfl]
  · rintro rfl
    rw [hne, if_pos rfl]

/-- R154: a tick of an instruction that is a skip on equality. -/
theorem step_skip_beq {s : State} {i : Instr} {a b : Byte} (hf : Fetches s i)
    (h : exec i (s.setPc (s.pc + 2)) = .next (skipIf (s.setPc (s.pc + 2)) (a == b))) :
    ∃ t, step s = .next t ∧ t.pc.toNat = s.pc.toNat + (if a = b then 4 else 2) := by
  refine ⟨_, (step_of_fetches hf).trans h, ?_⟩
  simp only [toNat_pc_skipIf hf, beq_iff_eq]

/-- R154: a tick of an instruction that is a skip on inequality. -/
theorem step_skip_bne {s : State} {i : Instr} {a b : Byte} (hf : Fetches s i)
    (h : exec i (s.setPc (s.pc + 2)) = .next (skipIf (s.setPc (s.pc + 2)) (a != b))) :
    ∃ t, step s = .next t ∧ t.pc.toNat = s.pc.toNat + (if a = b then 2 else 4) := by
  refine ⟨_, (step_of_fetches hf).trans h, ?_⟩
  simp only [toNat_pc_skipIf hf, bne_iff_ne, ite_not]

/-- R154: of a skip on equality and one on inequality of the same two bytes exactly one skips. -/
theorem exactly_one_skips (s : State) (a b : Byte) :
    ((skipIf s (a == b)).pc = s.pc + 2 ∧ (skipIf s (a != b)).pc = s.pc) ∨
      ((skipIf s (a == b)).pc = s.pc ∧ (skipIf s (a != b)).pc = s.pc + 2) := by
  rw [pc_skipIf_beq, pc_skipIf_bne]
  by_cases h : a = b
  · exact .inl ⟨if_pos h, if_pos h⟩
  · exact .inr ⟨if_neg h, if_neg h⟩

/-- Settles O25: the sums by `toNat_pc_skipIf`, the pairs by `exactly_one_skips`. -/
theorem skipTickMovesPcByFourOrTwo : Obligations.SkipTickMovesPcByFourOrTwo := by
  refine ⟨fun x y kk s => ⟨fun hf => ?_, fun hf => ?_, fun hf => ?_, fun hf => ?_⟩, fun x y kk s => ⟨?_, ?_⟩⟩
  · exact step_skip_beq hf rfl
  · exact step_skip_bne hf rfl
  · exact step_skip_beq hf rfl
  · exact step_skip_bne hf rfl
  · exact ⟨_, _, rfl, rfl, exactly_one_skips s _ _⟩
  · exact ⟨_, _, rfl, rfl, exactly_one_skips s _ _⟩

end Sys2Proof.Proofs
end

section
/-! Proofs of the statements of 43_register_ops.md about SetRegister and AddRegister. -/

namespace Sys2Proof.Proofs
open Sys2Proof Sys2Proof.Machine

/-- Settles O26: the write of one register. -/
theorem setRegisterWritesTheImmediate : Obligations.SetRegisterWritesTheImmediate := by
  intro x kk s
  exact ⟨fun extIo => decodeWord_formatXKK_setRegister extIo x kk, s.setV x kk, rfl, s.getV_setV_same x kk,
    onlyWrites_setV s x kk⟩

/-- Settles O27: the write of one register, of the 8-bit sum; VF is another register unless x is 15. -/
theorem addRegisterWrapsAndLeavesVf : Obligations.AddRegisterWrapsAndLeavesVf := by
  intro x kk s
  refine ⟨fun extIo => decodeWord_formatXKK_addRegister extIo x kk, s.setV x (addByte (s.getV x) kk), rfl, ?_,
    onlyWrites_setV s x _, fun hx => s.getV_setV_of_ne _ hx.symm⟩
  rw [s.getV_setV_same, addByte, BitVec.toNat_add]

end Sys2Proof.Proofs
end

section
/-! Proofs of the statements of 44_draw.md about Draw: which pixels it toggles, what it leaves in VF, and when it
fails. -/

namespace Sys2Proof.Proofs
open Sys2Proof Sys2Proof.Machine

/-- R176: VF is 1 exactly after a collision. -/
theorem collisionFlag_eq_one {b : Bool} : collisionFlag b = 1 ↔ b = true := by
  cases b <;> decide

/-- R174 to R176: what a Draw that completes leaves in the framebuffer and in VF. -/
structure DrawEffect (x y : RegIdx) (n : Nibble) (s t : State) : Prop where
  /-- Every pixel is toggled exactly where the sprite covers it. -/
  pixel : ∀ px py, t.fb.get px py =
    (s.fb.get px py ^^ spriteCovers s (originX s x) (originY s y) n.toNat px py)
  /-- VF is 1 exactly when the sprite covers a pixel that was on. -/
  hit : t.getV vf = 1 ↔
    ∃ px py, s.fb.get px py = true ∧ spriteCovers s (originX s x) (originY s y) n.toNat px py = true
  /-- VF is 0 otherwise. -/
  flag : t.getV vf = 0 ∨ t.getV vf = 1
  /-- Nothing else changes. -/
  frame : OnlyWrites [.fb, .v vf] s t

/-- R174: a Draw whose sprite rows lie in memory completes, with its effect. -/
theorem draw_completes {x y : RegIdx} {n : Nibble} {s : State} (h : spriteReadable s (originY s y) n.toNat) :
    ∃ t, exec (.draw x y n) s = .next t ∧ DrawEffect x y n s t := by
  obtain ⟨d, hexec, hget, hcol⟩ := execDraw_ok (x := x) h
  have hvf : ((s.setFb d.fb).setV vf (collisionFlag d.collided)).getV vf = collisionFlag d.collided :=
    State.getV_setV_same _ vf _
  refine ⟨_, hexec, hget, ?_, ?_, onlyWrites_setFb_setV s _ _⟩
  · rw [hvf, collisionFlag_eq_one, hcol]
  · rw [hvf]
    cases d.collided
    · exact .inl rfl
    · exact .inr rfl

/-- R174: what a Draw did, once it completed. -/
theorem drawEffect_of_next {x y : RegIdx} {n : Nibble} {s t : State} (h : exec (.draw x y n) s = .next t) :
    DrawEffect x y n s t := by
  obtain ⟨t', hexec, heffect⟩ := draw_completes (x := x) (spriteReadable_of_next h)
  cases hexec.symm.trans h
  exact heffect

/-- R176: without a covered pixel that was on, VF is 0. -/
theorem DrawEffect.vf_eq_zero {x y : RegIdx} {n : Nibble} {s t : State} (h : DrawEffect x y n s t)
    (hmiss : ∀ px py, s.fb.get px py = true →
      spriteCovers s (originX s x) (originY s y) n.toNat px py = false) : t.getV vf = 0 := by
  refine h.flag.resolve_right fun hone => ?_
  obtain ⟨px, py, hon, hcov⟩ := h.hit.mp hone
  rw [hmiss px py hon] at hcov
  cases hcov

/-- R177: a sprite that covers no pixel leaves the framebuffer and sets VF to 0. -/
theorem DrawEffect.of_covers_nothing {x y : RegIdx} {n : Nibble} {s t : State} (h : DrawEffect x y n s t)
    (hnone : ∀ px py, spriteCovers s (originX s x) (originY s y) n.toNat px py = false) :
    t.fb = s.fb ∧ t.getV vf = 0 := by
  refine ⟨Framebuffer.ext_get fun px py => ?_, h.vf_eq_zero fun px py _ => hnone px py⟩
  rw [h.pixel, hnone, Bool.xor_false]

/-- R177: a sprite covers no pixel outside its rows. -/
theorem spriteCovers_eq_false {s : State} {sx sy n : Nat} {px : Fin dispW} {py : Fin dispH}
    (h : ¬ (sy ≤ py.val ∧ py.val < sy + n)) : spriteCovers s sx sy n px py = false := by
  have hout : ¬ (sx ≤ px.val ∧ px.val < sx + 8 ∧ sy ≤ py.val ∧ py.val < sy + n) := fun ⟨_, _, hrows⟩ => h hrows
  rw [spriteCovers, decide_eq_false hout, Bool.false_and]

/-- Settles O30: the pixels by `DrawEffect.pixel`; a pixel that was on goes off exactly where it is covered. -/
theorem drawTogglesExactlyTheSpritePixels : Obligations.DrawTogglesExactlyTheSpritePixels := by
  refine ⟨fun x y n extIo => decodeWord_formatXYN_draw extIo x y n, fun x y n s hread => ?_⟩
  obtain ⟨t, hexec, heffect⟩ := draw_completes (x := x) hread
  refine ⟨t, hexec, heffect.pixel, ?_, fun hkept => heffect.vf_eq_zero fun px py hon => ?_, heffect.frame⟩
  · rintro ⟨px, py, hon, hoff⟩
    refine heffect.hit.mpr ⟨px, py, hon, ?_⟩
    rwa [heffect.pixel, hon, Bool.true_xor, Bool.not_eq_false'] at hoff
  · have hstill := hkept px py hon
    rwa [heffect.pixel, hon, Bool.true_xor, Bool.not_eq_true'] at hstill

/-- R174, R179: Draw fails exactly with a row past memory. -/
theorem execFails_draw_iff {x y : RegIdx} {n : Nibble} {s : State} {f : Fault} :
    ExecFails s (.draw x y n) f ↔ ¬ spriteReadable s (originY s y) n.toNat ∧ f = .outOfBounds := by
  constructor
  · rintro ⟨⟩
    exact ⟨‹_›, rfl⟩
  · rintro ⟨hread, rfl⟩
    exact .draw x y n hread

/-- Settles O31: the failing rows by `execFails_draw_iff`, the undone tick by `advance_one_of_execFails`. -/
theorem drawPastMemoryIsUndone : Obligations.DrawPastMemoryIsUndone := by
  intro x y n s
  refine ⟨?_, fun f hf => ?_, fun hf hread => advance_one_of_execFails hf (.draw x y n hread)⟩
  · rw [exec_fault_iff, execFails_draw_iff]
    exact and_iff_left rfl
  · exact (execFails_draw_iff.mp (exec_fault_iff.mp hf)).2

/-- Settles O32: the remainders are below their moduli; an origin below the display covers no pixel. -/
theorem originIsReducedBeforeDrawing : Obligations.OriginIsReducedBeforeDrawing := by
  refine ⟨rfl, fun x y n s => ⟨rfl, Nat.mod_lt _ (by decide), fun hmod => ?_, fun hmod => ?_⟩⟩
  · have hy : originY s y = (s.getV y).toNat % 32 := by rw [originY, hmod, OriginYMod.toNat]
    exact ⟨hy, by rw [hy]; exact Nat.mod_lt _ (by decide)⟩
  · refine ⟨by rw [originY, hmod, OriginYMod.toNat], fun hlow t h => ?_⟩
    refine (drawEffect_of_next h).of_covers_nothing fun px py => spriteCovers_eq_false fun ⟨htop, _⟩ => ?_
    have : py.val < 32 := py.isLt
    omega

/-- Settles O33: with no rows there is none to read and none that covers a pixel. -/
theorem drawOfNoRowsOnlyClearsVf : Obligations.DrawOfNoRowsOnlyClearsVf := by
  intro x y s
  exact ⟨(s.setFb s.fb).setV vf 0, rfl, rfl, State.getV_setV_same _ vf 0, onlyWrites_setV s vf 0⟩

/-- R174: the rows a Draw reads depend on I alone. -/
theorem spriteReadable_congr {s u : State} (hi : u.i = s.i) (sy n : Nat) :
    spriteReadable u sy n ↔ spriteReadable s sy n := by
  simp only [spriteReadable, spriteAddr, hi]

/-- R173: the pixels a sprite covers depend on I and the bytes of its rows alone. -/
theorem spriteCovers_congr {s u : State} {n : Nat} (hi : u.i = s.i)
    (hbytes : ∀ row, row < n → u.byteAt (s.i.toNat + row) = s.byteAt (s.i.toNat + row)) (sx sy : Nat)
    (px : Fin dispW) (py : Fin dispH) : spriteCovers u sx sy n px py = spriteCovers s sx sy n px py := by
  by_cases hrows : sy ≤ py.val ∧ py.val < sy + n
  · rw [spriteCovers, spriteCovers, spriteAddr, spriteAddr, hi, hbytes _ (by omega)]
  · rw [spriteCovers_eq_false hrows, spriteCovers_eq_false hrows]

/-- Settles O34: the second Draw toggles the same pixels again, and hits those the first turned on. -/
theorem drawIsItsOwnInverse : Obligations.DrawIsItsOwnInverse := by
  intro s t u x y x' y' n hfirst hfb hi hbytes hx hy
  have first := drawEffect_of_next hfirst
  have hread : spriteReadable u (originY u y') n.toNat := by
    rw [hy, spriteReadable_congr hi]
    exact spriteReadable_of_next hfirst
  obtain ⟨w, hexec, second⟩ := draw_completes (x := x') hread
  have hcov : ∀ px py, spriteCovers u (originX u x') (originY u y') n.toNat px py =
      spriteCovers s (originX s x) (originY s y) n.toNat px py := fun px py => by
    rw [hx, hy, spriteCovers_congr hi hbytes]
  refine ⟨w, hexec, Framebuffer.ext_get fun px py => ?_, second.flag, second.hit.trans ?_⟩
  · rw [second.pixel, hcov, hfb, first.pixel, Bool.xor_assoc, Bool.xor_self, Bool.xor_false]
  · refine exists_congr fun px => exists_congr fun py => ?_
    rw [hcov, hfb, first.pixel, and_comm]
    refine and_congr_right fun hcovered => ?_
    rw [hcovered, Bool.xor_true, Bool.not_eq_true']

end Sys2Proof.Proofs
end

section
/-! Proofs of the statements of 45_ext_io.md about what the seven instructions of the profile do. -/

namespace Sys2Proof.Proofs
open Sys2Proof Sys2Proof.Machine

/-- R191: SkipKeyPressed, with a key id in V[x]. -/
theorem exec_skipKeyPressed {s : State} {x : RegIdx} {k : Fin numKeys} (h : (s.getV x).toNat = k.val) :
    exec (.skipKeyPressed x) s = .next (skipIf s (s.keyDown k)) := by
  simp only [exec, execSkipKeyPressed, keyOperand_eq_some.mpr h]

/-- R192: SkipKeyNotPressed, with a key id in V[x]. -/
theorem exec_skipKeyNotPressed {s : State} {x : RegIdx} {k : Fin numKeys} (h : (s.getV x).toNat = k.val) :
    exec (.skipKeyNotPressed x) s = .next (skipIf s (!s.keyDown k)) := by
  simp only [exec, execSkipKeyNotPressed, keyOperand_eq_some.mpr h]

/-- Settles O35: with a key id each is `skipIf`, above 15 `exec_fault_iff`. -/
theorem keySkipsTestTheNamedKey : Obligations.KeySkipsTestTheNamedKey := by
  intro x s
  refine ⟨fun k hk => ⟨⟨_, exec_skipKeyPressed hk, pc_skipIf s _, onlyWrites_skipIf s _⟩,
    ⟨_, exec_skipKeyNotPressed hk, ?_, onlyWrites_skipIf s _⟩⟩, fun habove =>
    ⟨exec_fault_iff.mpr (.skipKeyPressed x habove), exec_fault_iff.mpr (.skipKeyNotPressed x habove)⟩⟩
  rw [pc_skipIf]
  cases s.keyDown k <;> rfl

/-- Settles O36: each is the one write of its name. -/
theorem timerInstructionsCopyOneByte : Obligations.TimerInstructionsCopyOneByte := by
  intro x s
  exact ⟨⟨s.setV x s.dt, rfl, s.getV_setV_same x _, onlyWrites_setV s x _⟩,
    ⟨s.setDt (s.getV x), rfl, rfl, onlyWrites_setDt s _⟩, ⟨s.setSt (s.getV x), rfl, rfl, onlyWrites_setSt s _⟩⟩

/-- R194: WaitKey with a key pressed. -/
theorem exec_waitKey_of_some {s : State} {k : Fin numKeys} (h : s.firstKey = some k) (x : RegIdx) :
    exec (.waitKey x) s = .next (s.setV x (BitVec.ofNat 8 k.val)) := by
  simp only [exec, execWaitKey, h]

/-- R194: WaitKey with none. -/
theorem exec_waitKey_of_none {s : State} (h : s.firstKey = none) (x : RegIdx) :
    exec (.waitKey x) s = .next (s.setPc (s.pc - 2)) := by
  simp only [exec, execWaitKey, h]

/-- A key id is a byte. -/
theorem toNat_ofNat_key (k : Fin numKeys) : (BitVec.ofNat 8 k.val).toNat = k.val := by
  have : k.val < 16 := k.isLt
  rw [BitVec.toNat_ofNat]
  omega

/-- R194: a tick of a WaitKey with no key pressed takes the fetch's PC + 2 back. -/
theorem step_waitKey_of_none {s : State} {x : RegIdx} (hnone : s.firstKey = none) (hf : Fetches s (.waitKey x)) :
    step s = .next s := by
  rw [step_of_fetches hf, exec_waitKey_of_none (s := s.setPc (s.pc + 2)) hnone]
  show Host.Outcome.next (s.setPc (s.pc + 2 - 2)) = .next s
  rw [BitVec.add_sub_cancel]
  rfl

/-- Settles O37, by whether a key is pressed. -/
theorem waitKeyTakesTheLeastPressedKey : Obligations.WaitKeyTakesTheLeastPressedKey := by
  refine ⟨fun x s k hdown hleast => ?_, fun x s hup => ?_, fun x s hup hf => ?_⟩
  · refine ⟨_, exec_waitKey_of_some (firstKey_eq_some hdown hleast) x, ?_, onlyWrites_setV s x _⟩
    rw [s.getV_setV_same, toNat_ofNat_key]
  · exact ⟨_, exec_waitKey_of_none (firstKey_eq_none hup) x, rfl, onlyWrites_setPc s _⟩
  · exact step_waitKey_of_none (firstKey_eq_none hup) hf

/-- Settles O38: the glyph's address is an exact sum. -/
theorem setIndexFontPointsAtTheGlyph : Obligations.SetIndexFontPointsAtTheGlyph := by
  intro x s
  exact ⟨s.setI (glyphOperand s x), rfl, toNat_glyphOperand s x, onlyWrites_setI s _⟩

end Sys2Proof.Proofs
end

section
/-! Proofs of the statements of 10_state.md and 70_reset_and_hazards.md: what CONSTRUCT and LOAD leave, and the first
tick after a LOAD. -/

namespace Sys2Proof.Proofs
open Sys2Proof Sys2Proof.Machine

/-- R49: CONSTRUCT leaves FONT_DATA from FONT_BASE on. -/
theorem constructByte_font (p : Params) (j : Fin 80) : constructByte p (p.fontBase.toNat + j.val) = p.fontData[j] := by
  have hin : p.fontBase.toNat ≤ p.fontBase.toNat + j.val ∧
      p.fontBase.toNat + j.val < p.fontBase.toNat + fontBytes :=
    ⟨Nat.le_add_right _ _, Nat.add_lt_add_left j.isLt _⟩
  rw [constructByte, dif_pos hin]
  simp only [Nat.add_sub_cancel_left]
  rfl

/-- R51: CONSTRUCT leaves 0x00 elsewhere. -/
theorem constructByte_outside {p : Params} {a : Nat} (h : a < p.fontBase.toNat ∨ p.fontBase.toNat + 80 ≤ a) :
    constructByte p a = 0 := by
  rw [constructByte, dif_neg]
  rintro ⟨hlow, hhigh⟩
  have : a < p.fontBase.toNat + 80 := hhigh
  omega

/-- Settles O50: memory by the two laws of `constructByte`, as nothing is listed; every other component is
a constant. -/
theorem constructGivesTheResetValues : Obligations.ConstructGivesTheResetValues := by
  intro p
  refine ⟨fun x => ?_, rfl, rfl, rfl, rfl, rfl, Framebuffer.get_clear, fun k => ?_, rfl, constructByte_font p,
    fun _ => constructByte_outside⟩
  · simp [State.getV, State.construct]
  · simp [State.keyDown, State.construct]

/-- Settles O52: the bytes by the laws of `Memory.writeAll`, which LOAD's update of the state is made of. -/
theorem loadCopiesTheProgram : Obligations.LoadCopiesTheProgram := by
  intro bytes s t h
  obtain ⟨-, rfl⟩ := load_ok h
  refine ⟨rfl, rfl, fun j hj => Memory.read_writeAll_inside s.params s.mem progBase bytes j hj,
    fun a ha => Memory.read_writeAll_outside s.params s.mem bytes ha, fun c hc => ?_⟩
  cases c with
  | pc | run | mem => simp at hc
  | _ => rfl

/-- Settles O53: the word at 0x200 is the first two bytes loaded, so the tick that decodes it runs it. -/
theorem firstTickAfterLoadRunsTheFirstWord : Obligations.FirstTickAfterLoadRunsTheFirstWord := by
  intro hi lo rest s t h
  obtain ⟨hpc, hrun, hbytes, -, -⟩ := loadCopiesTheProgram _ s t h
  have hhi : t.byteAt 0x200 = hi := hbytes 0 (by simp)
  have hlo : t.byteAt 0x201 = lo := hbytes 1 (by simp)
  have hword : wordAtPc t = hi ++ lo := by
    rw [wordAtPc, hpc]
    show wordOfBytes (t.byteAt 0x200) (t.byteAt 0x201) = hi ++ lo
    rw [hhi, hlo, wordOfBytes]
  refine ⟨hpc, hword, fun i hdec => ?_⟩
  have hf : Fetches t i := ⟨hrun, by rw [hpc]; decide, by rw [hword]; exact hdec⟩
  rw [step_of_fetches hf, hpc]
  rfl

end Sys2Proof.Proofs
end

section
/-! Proofs of the statements of 60_exceptions.md: TICK_TIMERS, SUBMIT_KEY and READ_FB. -/

namespace Sys2Proof.Proofs
open Sys2Proof Sys2Proof.Machine

/-- R228: one decrement, down to 0. -/
theorem toNat_timerTick (b : Byte) : (timerTick b).toNat = b.toNat - 1 := by
  unfold timerTick
  split
  · next h => rw [h]; rfl
  · next h =>
    have hpos : b.toNat ≠ 0 := fun e => h (BitVec.eq_of_toNat_eq e)
    have := b.isLt
    rw [BitVec.toNat_sub, show (1 : Byte).toNat = 1 from rfl]
    omega

/-- R228, R229: what a timer holds after some calls, for either timer. -/
theorem toNat_iterate_tickTimers {timer : State → Byte} (htick : ∀ s, timer (tickTimers s) = timerTick (timer s))
    (k : Nat) (s : State) : (timer (tickTimers^[k] s)).toNat = (timer s).toNat - k := by
  induction k generalizing s with
  | zero => rfl
  | succ k ih =>
    rw [Function.iterate_succ_apply, ih, htick, toNat_timerTick]
    omega

/-- R228: TICK_TIMERS writes the timers alone. -/
theorem onlyWrites_tickTimers (s : State) : OnlyWrites [.dt, .st] s (tickTimers s) :=
  (onlyWrites_setDt s (timerTick s.dt)).trans (onlyWrites_setSt _ (timerTick s.st))

/-- R228: however often it is called. -/
theorem onlyWrites_iterate_tickTimers (k : Nat) (s : State) : OnlyWrites [.dt, .st] s (tickTimers^[k] s) := by
  induction k generalizing s with
  | zero => exact OnlyWrites.refl _ s
  | succ k ih => exact (onlyWrites_tickTimers s).andThen (ih (tickTimers s))

/-- Settles O56, by induction on the number of calls. -/
theorem timersCountDownAndSaturate : Obligations.TimersCountDownAndSaturate := by
  intro k s
  exact ⟨rfl, ⟨toNat_iterate_tickTimers (timer := State.dt) (fun _ => rfl) k s,
    toNat_iterate_tickTimers (timer := State.st) (fun _ => rfl) k s⟩, onlyWrites_iterate_tickTimers k s⟩

/-- R235: SUBMIT_KEY of a key id. -/
theorem submitKey_of_lt (k : Fin numKeys) (down : Bool) (s : State) :
    submitKey k.val down s = .answered (s.setKey k down) .nothing := by
  rw [submitKey, dif_pos k.isLt]

/-- R236: the last submission of a key counts. -/
theorem setKey_setKey_same (s : State) (k : Fin numKeys) (down again : Bool) :
    (s.setKey k down).setKey k again = s.setKey k again := by
  simp [State.setKey]

/-- Settles O57: a key id by `submitKey_of_lt`, another number by the bound SUBMIT_KEY tests. -/
theorem submitKeySetsOneKey : Obligations.SubmitKeySetsOneKey := by
  refine ⟨fun k down s => ⟨s.setKey k down, submitKey_of_lt k down s, s.keyDown_setKey_same k down,
    fun j hj => s.keyDown_setKey_of_ne down hj, onlyWrites_setKey s k down, fun again => ?_⟩, fun k down s habove => ?_⟩
  · simp only [hostStep, submitKey_of_lt, setKey_setKey_same]
  · exact dif_neg (Nat.not_lt.mpr habove)

/-- Settles O58: x is the remainder and y the quotient of x + 64*y by the width. -/
theorem readFbIsRowMajor : Obligations.ReadFbIsRowMajor := by
  intro s
  refine ⟨readFb s, rfl, fun x y => ?_⟩
  have hx := x.isLt
  have hy := y.isLt
  have hcol : (x.val + 64 * y.val) % 64 = x.val := by omega
  have hrow : (x.val + 64 * y.val) / 64 = y.val := by omega
  have hlt : x.val + 64 * y.val < 2048 := by omega
  rw [Vector.getElem?_eq_getElem hlt, readFb, Vector.getElem_ofFn]
  simp only [dispW, hcol, hrow]

end Sys2Proof.Proofs
end

section
/-! Proofs of the statement about the model's own probe `withFetchWord` (notes/assumptions/3.md, 4.md). -/

namespace Sys2Proof.Proofs
open Sys2Proof Sys2Proof.Machine

/-- A word of the table is its own number. -/
theorem tableWord_toNat (w : Word) : tableWord 16 w.toNat = w := by
  apply BitVec.eq_of_toNat_eq
  have := w.isLt
  rw [tableWord, BitVec.toNat_ofNat]
  omega

/-- R102: a word needs the profile exactly where it encodes one of its instructions. -/
theorem needsExtIo_encode {i : Instr} (h : i.profile = .extIo) : needsExtIo (encode i) = true := by
  simp only [needsExtIo, decodeWord_false_of_extIo_major (fieldN1_encode_of_extIo h), decodeExtIo_encode h,
    Option.isSome_some]

/-- So with its profile switched on a word decodes to the instruction it encodes. -/
theorem decodeWord_withProfileOf (s : State) (i : Instr) :
    decodeWord (s.withProfileOf (encode i)).params.extIo (encode i) = .ok i := by
  apply decodeWord_encode
  cases hprofile : i.profile with
  | base => exact wellFormed_iff.mpr (.inl hprofile)
  | extIo =>
    refine wellFormed_iff.mpr (.inr ⟨hprofile, ?_⟩)
    show (s.params.extIo || needsExtIo (encode i)) = true
    rw [needsExtIo_encode hprofile, Bool.or_true]

/-- R66: a stored word's high byte is at its address. -/
theorem byteAt_storeWord_high (s : State) (a : Nat) (w : Word) : (s.storeWord a w).byteAt a = highByte w :=
  Memory.read_writeAll_inside s.params s.mem a [highByte w, lowByte w] 0 (by simp)

/-- R66: its low byte is at the next. -/
theorem byteAt_storeWord_low (s : State) (a : Nat) (w : Word) : (s.storeWord a w).byteAt (a + 1) = lowByte w :=
  Memory.read_writeAll_inside s.params s.mem a [highByte w, lowByte w] 1 (by simp)

/-- The word at PC, from its two bytes. -/
theorem wordAtPc_of_bytes {s : State} {w : Word} (hhi : s.byteAt s.pc.toNat = highByte w)
    (hlo : s.byteAt (s.pc.toNat + 1) = lowByte w) : wordAtPc s = w := by
  rw [wordAtPc, hhi, hlo, wordOfBytes_bytes]

/-- An encoding that stands at PC is fetched once its profile is on: no byte depends on EXT_IO. -/
theorem fetches_withProfileOf {s : State} {i : Instr} (hrun : s.run = .running) (hpc : s.pc.toNat ≤ 0x0FFE)
    (hword : wordAtPc s = encode i) : Fetches (s.withProfileOf (encode i)) i := by
  have hword' : wordAtPc (s.withProfileOf (encode i)) = encode i := hword
  refine ⟨hrun, hpc, ?_⟩
  rw [hword']
  exact decodeWord_withProfileOf s i

/-- A placed encoding is what the next tick fetches, at PC or at 0x200. -/
theorem fetches_placeWord (s : State) (i : Instr) : Fetches (placeWord s (encode i)) i := by
  unfold placeWord
  split
  · next h =>
    obtain ⟨hrun, hpc⟩ := h
    exact fetches_withProfileOf hrun (Nat.le_of_lt_succ (Nat.lt_of_succ_lt_succ hpc))
      (wordAtPc_of_bytes (byteAt_storeWord_high s _ _) (byteAt_storeWord_low s _ _))
  · exact fetches_withProfileOf rfl (show progBase ≤ 0x0FFE by decide)
      (wordAtPc_of_bytes (byteAt_storeWord_high s progBase _) (byteAt_storeWord_low s progBase _))

/-- R102: with EXT_IO true every instruction is well-formed. -/
theorem wellFormed_true (i : Instr) : i.wellFormed true = true := by
  unfold Instr.wellFormed
  cases i.profile <;> rfl

/-- The decoder reads an instruction's row of the table back. -/
theorem decodeTableWord_encode (i : Instr) : decodeTableWord 16 (encode i).toNat = some i := by
  have hbytes : decodeBytes true [highByte (encode i), lowByte (encode i)] = .ok (i, []) :=
    decodeBytes_encodeBytes (wellFormed_true i) []
  rw [decodeTableWord, tableWord_toNat, hbytes]

/-- Settles O59: the table's number of a word is the word, which the probe places and the decoder reads back. -/
theorem placedWordIsTheNextInstruction : Obligations.PlacedWordIsTheNextInstruction := by
  intro s i
  refine ⟨?_, decodeTableWord_encode i⟩
  rw [State.withFetchWord, tableWord_toNat]
  exact fetches_placeWord s i

end Sys2Proof.Proofs
end
